-- ==== Sys2Proof/Word.lean ====
section
/-! DEFINITION. The widths of CRC8F (spec/00_scope.md R10, spec/30_encoding.md R70, R81): a byte, a Word, a command
word and the data of a response. All values are unsigned (R12). -/

namespace Sys2Proof

/-- A byte, 8 bits (R10). -/
abbrev Byte := BitVec 8

/-- A Word, "a 16-bit unsigned value" (R10, R15). -/
abbrev Word := BitVec 16

/-- A command word `cmd[31:0]` (R70). -/
abbrev Command := BitVec 32

/-- The data of a response, 64 bits (R81). -/
abbrev Data := BitVec 64

end Sys2Proof
end

