-- ==== Sys2Proof/Config.lean ====
section
/-! DEFINITION. What this hardware fixes of the spec's one parameter (spec/00_scope.md R9). The spec leaves no value
open that a command produces (R80, R231), so there is no free value here. -/

namespace Sys2Proof

/-- The number of word registers; the spec's range is 4 to 85 and "this hardware takes NW = 4" (R9, log entry 4).
DESIGN CHOICE, safe for this hardware: R9 lets a model take NW as an argument or fix it at 4. -/
abbrev NW : Nat := 4

/-- The capacity of the byte buffer in bytes, 3 * NW (R9). -/
abbrev BUF_BYTES : Nat := 3 * NW

end Sys2Proof
end

