-- ==== Sys2Proof/Syntax.lean ====
section
/-! DEFINITION. The commands of CRC8F, one constructor per row of the opcode map (spec/30_encoding.md R78), the names of
its control and status registers (spec/10_state.md R31), and the names of the reasons a word is no command (R79). -/

namespace Sys2Proof

/-- The control and status registers, numbers 0x00 to 0x04 (R31). -/
inductive Csr where
  | poly
  | init
  | xorOut
  | status
  | len
  deriving DecidableEq, Repr

/-- The number of a word register W0 .. W(NW-1) (R24). -/
abbrev WordReg := Fin NW

/-- The fifteen commands with the operands of R78, each operand an unsigned number straight from its field (R77). -/
inductive Instr where
  /-- `RESET` (R100). -/
  | reset
  /-- `CSRR csr` (R102). -/
  | csrr (csr : Csr)
  /-- `CSRW csr, imm8` (R104); well formed only for POLY, INIT and XOROUT (R79 item 4). -/
  | csrw (csr : Csr) (imm8 : Byte)
  /-- `SELFTEST` (R106). -/
  | selftest
  /-- `CLRB` (R120). -/
  | clrb
  /-- `PUSHB imm8` (R121). -/
  | pushb (imm8 : Byte)
  /-- `STB addr, imm8` (R122). -/
  | stb (addr imm8 : Byte)
  /-- `LDB addr` (R123). -/
  | ldb (addr : Byte)
  /-- `CRC off, len` (R150). -/
  | crc (off len : Byte)
  /-- `CRCV off, len` (R151). -/
  | crcv (off len : Byte)
  /-- `LDW Wd, imm16` (R170). -/
  | ldw (d : WordReg) (imm16 : Word)
  /-- `RDW Ws` (R171). -/
  | rdw (src : WordReg)
  /-- `PACK Ws` (R172). -/
  | pack (src : WordReg)
  /-- `UNFRAME count` (R173). -/
  | unframe (count : Byte)
  /-- `COMBINE n` (R174). -/
  | combine (n : Byte)
  deriving DecidableEq, Repr

/-- Why a word is no legal command: the five items of R79, the items that concern a register each under a name. -/
inductive DecodeError where
  /-- R79 item 1: `op` is not one of the fifteen opcodes. -/
  | unassignedOpcode
  /-- R79 item 2: a must-be-zero field is not zero. -/
  | nonzeroMustBeZero
  /-- R79 items 3 and 4: no CSR has this number. -/
  | noSuchCsr
  /-- R79 item 4: CSRW names STATUS or LEN. -/
  | readOnlyCsr
  /-- R79 item 5: no word register has this number. -/
  | noSuchWordReg
  deriving DecidableEq, Repr

end Sys2Proof
end

