-- ==== Sys2Proof/WellFormed.lean ====
section
/-! DEFINITION. Which terms of `Instr` are legal encodings. Operand ranges that are a plain bound (word register numbers,
CSR numbers) are in the types; what is left is R79 item 4: CSRW may not name a read-only register. -/

namespace Sys2Proof

/-- The registers CSRW may name: POLY, INIT, XOROUT (R31, R79 item 4). -/
def Csr.writable : Csr → Bool
  | .poly => true
  | .init => true
  | .xorOut => true
  | .status => false
  | .len => false

/-- A command that R79 does not list as illegal. -/
def Instr.wellFormed : Instr → Bool
  | .reset => true
  | .csrr _ => true
  | .csrw csr _ => csr.writable
  | .selftest => true
  | .clrb => true
  | .pushb _ => true
  | .stb _ _ => true
  | .ldb _ => true
  | .crc _ _ => true
  | .crcv _ _ => true
  | .ldw _ _ => true
  | .rdw _ => true
  | .pack _ => true
  | .unframe _ => true
  | .combine _ => true

end Sys2Proof
end

