-- ==== Sys2Proof/Decode.lean ====
section
/-! DEFINITION. The decoder (spec/30_encoding.md R70, R71, R77 to R79, R87), the opcode table as rows of match and mask
(R86), and the encoder. The decoder reads no state (R87). A command word is handed to the unit as a 32-bit value, so no
byte order of command fetch exists (R70). -/

namespace Sys2Proof

/-! ## The four fields of a command word (R70) -/

/-- `op = cmd[31:24]`. -/
def fieldOp (w : Command) : Byte := w.extractLsb' 24 8

/-- `fa = cmd[23:16]`. -/
def fieldFa (w : Command) : Byte := w.extractLsb' 16 8

/-- `fb = cmd[15:8]`. -/
def fieldFb (w : Command) : Byte := w.extractLsb' 8 8

/-- `fc = cmd[7:0]`. -/
def fieldFc (w : Command) : Byte := w.extractLsb' 0 8

/-- The word with the four given fields (R70). -/
def commandWord (op fa fb fc : Byte) : Command := op ++ fa ++ fb ++ fc

/-! ## Operands with a legal range narrower than a field -/

/-- The CSR with this number (R31). -/
def csrOfNumber : Byte → Except DecodeError Csr
  | 0x00#8 => .ok .poly
  | 0x01#8 => .ok .init
  | 0x02#8 => .ok .xorOut
  | 0x03#8 => .ok .status
  | 0x04#8 => .ok .len
  | _ => .error .noSuchCsr

/-- The number of a CSR (R31). -/
def csrNumber : Csr → Byte
  | .poly => 0x00#8
  | .init => 0x01#8
  | .xorOut => 0x02#8
  | .status => 0x03#8
  | .len => 0x04#8

/-- The word register with this number, if it is below NW (R77, R79 item 5). -/
def wordRegOfNumber (n : Byte) : Except DecodeError WordReg :=
  if h : n.toNat < NW then .ok ⟨n.toNat, h⟩ else .error .noSuchWordReg

/-- The number of a word register. -/
def wordRegNumber (r : WordReg) : Byte := BitVec.ofNat 8 r.val

/-! ## The decoder -/

/-- Go on with `k` if a must-be-zero field is zero, else refuse the word (R71, R79 item 2). -/
def needZero {n : Nat} (field : BitVec n) (k : Except DecodeError Instr) : Except DecodeError Instr :=
  if field = 0#n then k else .error .nonzeroMustBeZero

/-- CSRW's command for a CSR it may name (R79 item 4). -/
def csrwOf (csr : Csr) (imm8 : Byte) : Except DecodeError Instr :=
  if csr.writable then .ok (.csrw csr imm8) else .error .readOnlyCsr

/-- Decode a command word: `op` first, then the must-be-zero fields, then the fields with a narrower legal range (R87). -/
def decode (w : Command) : Except DecodeError Instr :=
  let fa := fieldFa w
  let fb := fieldFb w
  let fc := fieldFc w
  match fieldOp w with
  | 0x01#8 => needZero fa (needZero fb (needZero fc (.ok .reset)))
  | 0x02#8 => needZero fb (needZero fc ((csrOfNumber fa).map .csrr))
  | 0x03#8 => needZero fb ((csrOfNumber fa).bind (csrwOf · fc))
  | 0x04#8 => needZero fa (needZero fb (needZero fc (.ok .selftest)))
  | 0x10#8 => needZero fa (needZero fb (needZero fc (.ok .clrb)))
  | 0x11#8 => needZero fa (needZero fb (.ok (.pushb fc)))
  | 0x12#8 => needZero fa (.ok (.stb fb fc))
  | 0x13#8 => needZero fa (needZero fb (.ok (.ldb fc)))
  | 0x20#8 => needZero fa (.ok (.crc fb fc))
  | 0x21#8 => needZero fa (.ok (.crcv fb fc))
  | 0x30#8 => (wordRegOfNumber fa).map (.ldw · (fb ++ fc))
  | 0x31#8 => needZero fb (needZero fc ((wordRegOfNumber fa).map .rdw))
  | 0x32#8 => needZero fb (needZero fc ((wordRegOfNumber fa).map .pack))
  | 0x33#8 => needZero fa (needZero fb (.ok (.unframe fc)))
  | 0x34#8 => needZero fa (needZero fb (.ok (.combine fc)))
  | _ => .error .unassignedOpcode

/-- What the decoder reads from a word whose bits are numbered as spec/opcode_table.json numbers them; bits at `nbits`
and above are zero (log entry 1). -/
def decodeTableWord (nbits w : Nat) : Option Instr :=
  match decode (BitVec.ofNat 32 (w % 2 ^ nbits)) with
  | .ok i => some i
  | .error _ => none

/-! ## The encoder -/

/-- `imm16[15:8]`, the field `fb` of LDW (R77). -/
def highByte (v : Word) : Byte := v.extractLsb' 8 8

/-- `imm16[7:0]`, the field `fc` of LDW (R77). -/
def lowByte (v : Word) : Byte := v.extractLsb' 0 8

/-- The command word of an instruction, from the formats of R71 and the bit patterns of R86. -/
def encode : Instr → Command
  | .reset => commandWord 0x01#8 0#8 0#8 0#8
  | .csrr csr => commandWord 0x02#8 (csrNumber csr) 0#8 0#8
  | .csrw csr imm8 => commandWord 0x03#8 (csrNumber csr) 0#8 imm8
  | .selftest => commandWord 0x04#8 0#8 0#8 0#8
  | .clrb => commandWord 0x10#8 0#8 0#8 0#8
  | .pushb imm8 => commandWord 0x11#8 0#8 0#8 imm8
  | .stb addr imm8 => commandWord 0x12#8 0#8 addr imm8
  | .ldb addr => commandWord 0x13#8 0#8 0#8 addr
  | .crc off len => commandWord 0x20#8 0#8 off len
  | .crcv off len => commandWord 0x21#8 0#8 off len
  | .ldw d imm16 => commandWord 0x30#8 (wordRegNumber d) (highByte imm16) (lowByte imm16)
  | .rdw src => commandWord 0x31#8 (wordRegNumber src) 0#8 0#8
  | .pack src => commandWord 0x32#8 (wordRegNumber src) 0#8 0#8
  | .unframe count => commandWord 0x33#8 0#8 0#8 count
  | .combine n => commandWord 0x34#8 0#8 0#8 n

/-! ## The opcode table as rows (R86) -/

/-- The match and the mask of one row of R86: a word `cmd` selects the row when `cmd & mask = match`. -/
structure OpcodeRow where
  mnemonic : String
  pattern : Command
  mask : Command
  deriving DecidableEq, Repr

/-- `cmd & mask = match` (R86). -/
def OpcodeRow.selects (r : OpcodeRow) (w : Command) : Bool := w &&& r.mask == r.pattern

/-- The row of R86 that an instruction's word selects. -/
def opcodeRow : Instr → OpcodeRow
  | .reset => ⟨"RESET", 0x01000000#32, 0xFFFFFFFF#32⟩
  | .csrr _ => ⟨"CSRR", 0x02000000#32, 0xFF00FFFF#32⟩
  | .csrw _ _ => ⟨"CSRW", 0x03000000#32, 0xFF00FF00#32⟩
  | .selftest => ⟨"SELFTEST", 0x04000000#32, 0xFFFFFFFF#32⟩
  | .clrb => ⟨"CLRB", 0x10000000#32, 0xFFFFFFFF#32⟩
  | .pushb _ => ⟨"PUSHB", 0x11000000#32, 0xFFFFFF00#32⟩
  | .stb _ _ => ⟨"STB", 0x12000000#32, 0xFFFF0000#32⟩
  | .ldb _ => ⟨"LDB", 0x13000000#32, 0xFFFFFF00#32⟩
  | .crc _ _ => ⟨"CRC", 0x20000000#32, 0xFFFF0000#32⟩
  | .crcv _ _ => ⟨"CRCV", 0x21000000#32, 0xFFFF0000#32⟩
  | .ldw _ _ => ⟨"LDW", 0x30000000#32, 0xFF000000#32⟩
  | .rdw _ => ⟨"RDW", 0x31000000#32, 0xFF00FFFF#32⟩
  | .pack _ => ⟨"PACK", 0x32000000#32, 0xFF00FFFF#32⟩
  | .unframe _ => ⟨"UNFRAME", 0x33000000#32, 0xFFFFFF00#32⟩
  | .combine _ => ⟨"COMBINE", 0x34000000#32, 0xFFFFFF00#32⟩

/-- The fifteen rows of R86, in the table's order (a row does not depend on the operands). -/
def opcodeTable : List OpcodeRow :=
  [.reset, .csrr .poly, .csrw .poly 0, .selftest, .clrb, .pushb 0, .stb 0 0, .ldb 0, .crc 0 0, .crcv 0 0, .ldw 0 0,
    .rdw 0, .pack 0, .unframe 0, .combine 0].map opcodeRow

/-- The field checks of R79 items 3 to 5, on a word that selects a row: CSR numbers and word register numbers. -/
def fieldsLegal (w : Command) : Bool :=
  match fieldOp w with
  | 0x02#8 => (fieldFa w).toNat ≤ 0x04
  | 0x03#8 => (fieldFa w).toNat ≤ 0x02
  | 0x30#8 => (fieldFa w).toNat < NW
  | 0x31#8 => (fieldFa w).toNat < NW
  | 0x32#8 => (fieldFa w).toNat < NW
  | _ => true

end Sys2Proof
end

