-- ==== Sys2Proof/Machine/State.lean ====
section
/-! DEFINITION. The state of CRC8F as plain data (spec/10_state.md R20, R32), what the host does to it and sees of it
(spec/70_reset_and_hazards.md R231), and the reasons a step can stop. -/

namespace Sys2Proof.Machine

/-- MODE: "a model's MODE type has three values" (R25, 93_implementation_defined.md V4); the value 3 is never held. -/
inductive Mode where
  | unconfigured
  | ready
  | failed
  deriving DecidableEq, Repr

/-- The status of a response, by the names of R190; `Status.code` in Machine/Ops.lean gives the 8-bit codes. -/
inductive Status where
  | ok
  | illegalCommand
  | notConfigured
  | configInvalid
  | configLocked
  | selfTestFail
  | addressRange
  | bufferOverflow
  | countRange
  | lengthMismatch
  | checksumMismatch
  deriving DecidableEq, Repr

/-- The response to one command: a status and 64 bits of data (R81). -/
structure Response where
  status : Status
  data : Data
  deriving DecidableEq, Repr

/-- What the host can do to the unit (R231, R232): issue a command word, or assert the reset input between commands. -/
inductive HostAction where
  | command (w : Command)
  | reset
  deriving DecidableEq, Repr

/-- `cfg`, the triple (CSR.POLY, CSR.INIT, CSR.XOROUT) (R13, R21, R22, R23). -/
structure ChecksumConfig where
  poly : Byte
  init : Byte
  xorOut : Byte
  deriving DecidableEq, Repr

/-- Memory: the listed bytes, addresses strictly rising, no byte listed that equals what an unlisted one reads as. -/
abbrev Memory := List Host.Cell

/-- The whole state of the unit (R20), and after it the two ends of the command port (R231; not state of the unit). -/
structure State where
  /-- CSR.POLY, CSR.INIT, CSR.XOROUT (R21, R22, R23). -/
  cfg : ChecksumConfig
  /-- MODE, and so CSR.STATUS (R25, R26). -/
  mode : Mode
  /-- TABLE, hidden, 256 bytes (R30). -/
  table : Vector Byte 256
  /-- BUF (R50). -/
  buf : Memory
  /-- LEN, CSR.LEN (R28). -/
  len : Byte
  /-- The word registers W0 .. W(NW-1) (R24). -/
  w : Vector Word NW
  /-- The host actions not yet taken, oldest first (log entry 1). -/
  port : List HostAction
  /-- The responses given so far, oldest first (log entry 2). -/
  responses : List Response
  deriving DecidableEq, Repr

/-- The one reason the model has to stop. -/
inductive Fault where
  /-- Raised by PUSHB, STB, LDB, CRC and CRCV when they reach an address outside 0..BUF_BYTES-1, which the spec says does
  not exist (R50, R54); the same branch of PACK and UNFRAME is never taken. Only a state with LEN > BUF_BYTES raises it,
  which R34 item 1 excludes and no run reaches. SAFE: the model stops where the spec has no state (log entry 5). -/
  | noSuchAddress
  deriving DecidableEq, Repr

/-- The reasons the model has for giving a command no meaning. -/
inductive Refusal where
  /-- Raised by an arm of `exec` whose instruction has no meaning yet; no arm does. SAFE. -/
  | notModelled (mnemonic : String)
  deriving DecidableEq, Repr

/-- What a byte of BUF that is not listed reads as: the reset contents 0x00 (R32). -/
def unlistedByte : Byte := 0x00#8

/-- The state after reset (R32), with nothing at the port and no response given yet (log entries 1 and 2). -/
def State.reset : State where
  cfg := ⟨0x31#8, 0xFF#8, 0x00#8⟩
  mode := .unconfigured
  table := Vector.replicate 256 0x00#8
  buf := []
  len := 0x00#8
  w := Vector.replicate NW 0x0000#16
  port := []
  responses := []

end Sys2Proof.Machine
end

