-- ==== Sys2Proof/Machine/Ops.lean ====
section
/-! DEFINITION. The named operations: the byte buffer, the updates of each piece of state, answering a command (an error
response is the unit's only exception, spec/60_exceptions.md), and reset. -/

namespace Sys2Proof.Machine

/-! ## The byte buffer (spec/20_memory.md R50, R53, R54) -/

/-- The byte listed for an address, or what an unlisted byte reads as. -/
def Memory.lookup : Memory → Nat → Byte
  | [], _ => unlistedByte
  | (k, v) :: m, a => if k = a then v else Memory.lookup m a

/-- Store a byte and keep the canonical form: a byte equal to what an unlisted one reads as is not listed. -/
def Memory.insert : Memory → Nat → Byte → Memory
  | [], a, b => if b = unlistedByte then [] else [(a, b)]
  | (k, v) :: m, a, b =>
    if k < a then (k, v) :: Memory.insert m a b
    else if k = a then (if b = unlistedByte then m else (a, b) :: m)
    else if b = unlistedByte then (k, v) :: m else (a, b) :: (k, v) :: m

/-- `BUF[a]`; nothing for an address that does not exist (R50, log entry 5). -/
def Memory.read (m : Memory) (a : Nat) : Option Byte :=
  if a < BUF_BYTES then some (Memory.lookup m a) else none

/-- `BUF[a] <- b`; nothing for an address that does not exist (R54). -/
def Memory.write (m : Memory) (a : Nat) (b : Byte) : Option Memory :=
  if a < BUF_BYTES then some (Memory.insert m a b) else none

/-- `MemRead(addr, n)`: the bytes at addr .. addr+n-1, in address order (R13). -/
def Memory.readSpan (m : Memory) (addr : Nat) : Nat → Option (List Byte)
  | 0 => some []
  | n + 1 =>
    match Memory.read m addr with
    | none => none
    | some b =>
      match Memory.readSpan m (addr + 1) n with
      | none => none
      | some bs => some (b :: bs)

/-- `MemWrite(addr, n, l)`: the bytes of `l` to addr, addr+1, ... (R13). -/
def Memory.writeSpan (m : Memory) (addr : Nat) : List Byte → Option Memory
  | [] => some m
  | b :: bs =>
    match Memory.write m addr b with
    | none => none
    | some m' => Memory.writeSpan m' (addr + 1) bs

/-- The canonical form: addresses strictly rising and inside BUF, no byte listed that an unlisted address reads as. -/
abbrev Memory.wf (m : Memory) : Prop :=
  m.Pairwise (fun c d => c.1 < d.1) ∧ ∀ c ∈ m, c.1 < BUF_BYTES ∧ c.2 ≠ unlistedByte

/-! ## Updates of the state, one per piece (`X <- v` of R13) -/

/-- CSR.POLY, CSR.INIT and CSR.XOROUT. -/
def State.setCfg (s : State) (c : ChecksumConfig) : State := { s with cfg := c }

/-- MODE. -/
def State.setMode (s : State) (m : Mode) : State := { s with mode := m }

/-- TABLE. -/
def State.setTable (s : State) (t : Vector Byte 256) : State := { s with table := t }

/-- BUF. -/
def State.setBuf (s : State) (m : Memory) : State := { s with buf := m }

/-- LEN. -/
def State.setLen (s : State) (n : Byte) : State := { s with len := n }

/-- All word registers. -/
def State.setWords (s : State) (v : Vector Word NW) : State := { s with w := v }

/-- `W[d] <- v`, one word register (R24). -/
def State.setWord (s : State) (d : WordReg) (v : Word) : State := s.setWords (s.w.set d.val v d.isLt)

/-- The host actions not yet taken. -/
def State.setPort (s : State) (p : List HostAction) : State := { s with port := p }

/-! ## Answering a command (spec/00_scope.md R13, spec/30_encoding.md R81) -/

/-- The 8-bit code of a status (R190). -/
def Status.code : Status → Byte
  | .ok => 0x00#8
  | .illegalCommand => 0x01#8
  | .notConfigured => 0x02#8
  | .configInvalid => 0x03#8
  | .configLocked => 0x04#8
  | .selfTestFail => 0x05#8
  | .addressRange => 0x06#8
  | .bufferOverflow => 0x07#8
  | .countRange => 0x08#8
  | .lengthMismatch => 0x09#8
  | .checksumMismatch => 0x0A#8

/-- Give the host one more response; no other state is written. -/
def State.answer (s : State) (st : Status) (data : Data) : State :=
  { s with responses := s.responses ++ [⟨st, data⟩] }

/-- `respond(v)`: status OK, data zero-extended (R13). -/
def State.respond {n : Nat} (s : State) (v : BitVec n) : State := s.answer .ok (v.setWidth 64)

/-- `raise <Status>(info)`: the unit's exception. No state is written (R13, R196), nothing is saved, nothing is
remembered and there is nothing to return from (R198). -/
def State.raise {n : Nat} (s : State) (st : Status) (info : BitVec n) : State := s.answer st (info.setWidth 64)

/-! ## Reset (spec/40_system_config.md R100, R101) -/

/-- Every piece of the unit's state to its reset value (R32); the port and the responses given are not the unit's. -/
def State.resetUnit (s : State) : State :=
  { State.reset with port := s.port, responses := s.responses }

/-! ## The command port (spec/70_reset_and_hazards.md R231) -/

/-- Take the oldest host action: it leaves the port. -/
def State.takeAction (s : State) : Option (HostAction × State) :=
  match s.port with
  | [] => none
  | a :: rest => some (a, s.setPort rest)

/-- Put a host action at the port, before every other. -/
def State.issueFirst (s : State) (a : HostAction) : State := s.setPort (a :: s.port)

end Sys2Proof.Machine
end

