-- ==== Sys2Proof/Machine/Crc.lean ====
section
/-! DEFINITION. The checksum function (spec/42_checksum.md R141 to R144) and the constants of the self-check
(spec/00_scope.md R11). Pure functions: they take the configuration as an argument and read no state (R14). -/

namespace Sys2Proof.Machine

/-- One bit step (R141): shift toward the most significant end, exclusive-or the polynomial when bit 7 was 1. -/
def crcBitStep (poly c : Byte) : Byte := if c.msb then (c <<< 1) ^^^ poly else c <<< 1

/-- `n` bit steps. -/
def crcBitSteps (poly : Byte) : Nat → Byte → Byte
  | 0, c => c
  | n + 1, c => crcBitSteps poly n (crcBitStep poly c)

/-- One byte step (R142): the data byte exclusive-ored in, then eight bit steps. -/
def crcByte (poly c b : Byte) : Byte := crcBitSteps poly 8 (c ^^^ b)

/-- `table(poly)`, 256 entries (R142). -/
def crcTable (poly : Byte) : Vector Byte 256 := Vector.ofFn fun i : Fin 256 => crcByte poly 0x00#8 (BitVec.ofFin i)

/-- A byte sequence, element 0 first (R143). -/
def crcRaw (poly : Byte) : Byte → List Byte → Byte
  | c, [] => c
  | c, b :: rest => crcRaw poly (crcByte poly c b) rest

/-- `checksum(cfg, bytes)` (R144). -/
def checksum (cfg : ChecksumConfig) (bytes : List Byte) : Byte := crcRaw cfg.poly cfg.init bytes ^^^ cfg.xorOut

/-- CHECK_STRING, the ASCII bytes of "123456789" (R11). -/
def CHECK_STRING : List Byte := [0x31#8, 0x32#8, 0x33#8, 0x34#8, 0x35#8, 0x36#8, 0x37#8, 0x38#8, 0x39#8]

/-- CHECK_VALUE (R11). -/
def CHECK_VALUE : Byte := 0xF7#8

end Sys2Proof.Machine
end

