-- ==== Sys2Proof/Machine/Flags.lean ====
section
/-! DEFINITION. MODE, the unit's only flag (spec/10_state.md R25): its bits in CSR.STATUS, the gate and the lock that
test it, and the value SELFTEST gives it. There are no condition codes. -/

namespace Sys2Proof.Machine

/-- The two bits of MODE (R25). -/
def Mode.bits : Mode → BitVec 2
  | .unconfigured => 0#2
  | .ready => 1#2
  | .failed => 2#2

/-- CSR.STATUS: bits 1:0 are MODE, bits 7:2 read as 0 (R26). -/
def Mode.statusByte (m : Mode) : Byte := m.bits.setWidth 8

/-- The gate (R194): the error a gated command ends with, or nothing when MODE = READY. -/
def Mode.gate : Mode → Option Status
  | .unconfigured => some .notConfigured
  | .failed => some .configInvalid
  | .ready => none

/-- The configuration lock (R36, R104, R106): set from the first SELFTEST to the next reset. -/
def Mode.locked : Mode → Bool
  | .unconfigured => false
  | .ready => true
  | .failed => true

/-- The MODE that SELFTEST leaves for a computed check value (R106). -/
def selfTestMode (v : Byte) : Mode := if v = CHECK_VALUE then .ready else .failed

/-- The status that SELFTEST answers for a computed check value (R106). -/
def selfTestStatus (v : Byte) : Status := if v = CHECK_VALUE then .ok else .selfTestFail

end Sys2Proof.Machine
end

