-- ==== Sys2Proof/Machine/Frame.lean ====
section
/-! DEFINITION. The framer's functions (spec/43_framer.md R160 to R164). Pure functions over the configuration (R14). -/

namespace Sys2Proof.Machine

/-- The high byte, the low byte and the checksum of a framed word, as one 24-bit number (R161). -/
def frameBits (hi lo ck : Byte) : BitVec 24 := hi ++ lo ++ ck

/-- The checksum byte of a word's frame (R160). -/
def frameChecksum (cfg : ChecksumConfig) (v : Word) : Byte := checksum cfg [highByte v, lowByte v]

/-- `pack_word(cfg, w)`: high byte, low byte, checksum (R160). -/
def packWord (cfg : ChecksumConfig) (v : Word) : List Byte := [highByte v, lowByte v, frameChecksum cfg v]

/-- Why `unframe` gives no words (R162). -/
inductive UnframeError where
  | lengthMismatch (length count : Nat)
  | checksumMismatch (group : Nat) (expected actual : Byte)
  deriving DecidableEq, Repr

/-- The groups of `unframe` from group `i` on, in ascending order, `count` of them; the first mismatch ends it (R162,
R199). Bytes that do not fill a group cannot be met after `unframe`'s own length test. -/
def unframeGroups (cfg : ChecksumConfig) (i : Nat) : List Byte → Nat → Except UnframeError (List Word)
  | _, 0 => .ok []
  | hi :: lo :: actual :: rest, count + 1 =>
    if checksum cfg [hi, lo] = actual then
      match unframeGroups cfg (i + 1) rest count with
      | .ok words => .ok ((hi ++ lo) :: words)
      | .error e => .error e
    else .error (.checksumMismatch i (checksum cfg [hi, lo]) actual)
  | short, count + 1 => .error (.lengthMismatch short.length (count + 1))

/-- `unframe(cfg, buf, count)`: the length first, then the groups (R162). -/
def unframe (cfg : ChecksumConfig) (bytes : List Byte) (count : Nat) : Except UnframeError (List Word) :=
  if bytes.length = 3 * count then unframeGroups cfg 0 bytes count
  else .error (.lengthMismatch bytes.length count)

/-- Words joined big-endian, the first one most significant. -/
def joinWords (words : List Word) : Data := words.foldl (fun acc v => (acc <<< 16) ||| v.setWidth 64) 0

/-- `combine_words(words)`, defined for 1 to 4 words only; it has no value otherwise (R164). -/
def combineWords (words : List Word) : Option Data :=
  if 1 ≤ words.length ∧ words.length ≤ 4 then some (joinWords words) else none

end Sys2Proof.Machine
end

