-- ==== Sys2Proof/Machine/Operands.lean ====
section
/-! DEFINITION. How a command reaches its operands: control and status registers (spec/10_state.md R31), word registers
(R24), and the information its errors report (spec/30_encoding.md R81). -/

namespace Sys2Proof.Machine

/-- The value CSRR reads (R31, R102). -/
def State.csrValue (s : State) : Csr → Byte
  | .poly => s.cfg.poly
  | .init => s.cfg.init
  | .xorOut => s.cfg.xorOut
  | .status => s.mode.statusByte
  | .len => s.len

/-- The configuration after CSRW; nothing for a register that may not be written (R31, R104). -/
def ChecksumConfig.write (c : ChecksumConfig) (csr : Csr) (v : Byte) : Option ChecksumConfig :=
  match csr with
  | .poly => some { c with poly := v }
  | .init => some { c with init := v }
  | .xorOut => some { c with xorOut := v }
  | .status => none
  | .len => none

/-- `W[s]` (R24). -/
def State.word (s : State) (r : WordReg) : Word := s.w[r.val]

/-- `[W[0], ..., W[n-1]]`, for n at most NW (R174). -/
def State.firstWords (s : State) (n : Nat) : List Word := s.w.toList.take n

/-- `W[i] <- words[0]`, `W[i+1] <- words[1]`, ...: the write of UNFRAME (R173). -/
def writeWords (v : Vector Word NW) (i : Nat) : List Word → Vector Word NW
  | [] => v
  | x :: xs => writeWords (v.setIfInBounds i x) (i + 1) xs

/-- Three bytes of error information: data[23:16], data[15:8], data[7:0] (R81, R200). -/
def info3 (high mid low : Byte) : BitVec 24 := high ++ mid ++ low

/-- Two bytes of information: data[15:8], data[7:0] (R81). -/
def info2 (high low : Byte) : BitVec 16 := high ++ low

end Sys2Proof.Machine
end

