-- ==== Sys2Proof/Machine/Buffer.lean ====
section
/-! DEFINITION. The buffer commands (spec/41_buffer.md R120 to R123): CLRB, PUSHB, STB, LDB. None is gated. -/

namespace Sys2Proof.Machine

/-- CLRB (R120): the bytes of BUF are not changed (log entry 6). -/
def execClrb (s : State) : Host.Outcome State Fault Refusal :=
  .next ((s.setLen 0#8).respond 0#8)

/-- PUSHB imm8 (R121). -/
def execPushb (imm8 : Byte) (s : State) : Host.Outcome State Fault Refusal :=
  if s.len.toNat = BUF_BYTES then .next (s.raise .bufferOverflow s.len)
  else
    match s.buf.write s.len.toNat imm8 with
    | none => .fault .noSuchAddress
    | some m => .next (((s.setBuf m).setLen (s.len + 1)).respond (s.len + 1))

/-- STB addr, imm8 (R122). -/
def execStb (addr imm8 : Byte) (s : State) : Host.Outcome State Fault Refusal :=
  if s.len.toNat ≤ addr.toNat then .next (s.raise .addressRange s.len)
  else
    match s.buf.write addr.toNat imm8 with
    | none => .fault .noSuchAddress
    | some m => .next ((s.setBuf m).respond 0#8)

/-- LDB addr (R123). -/
def execLdb (addr : Byte) (s : State) : Host.Outcome State Fault Refusal :=
  if s.len.toNat ≤ addr.toNat then .next (s.raise .addressRange s.len)
  else
    match s.buf.read addr.toNat with
    | none => .fault .noSuchAddress
    | some b => .next (s.respond b)

end Sys2Proof.Machine
end

