-- ==== Sys2Proof/Machine/Checksum.lean ====
section
/-! DEFINITION. The checksum commands (spec/42_checksum.md R150, R151): CRC and CRCV, both gated. -/

namespace Sys2Proof.Machine

/-- CRC off, len (R150); the sum off + len is taken in the natural numbers (R53, R77). -/
def execCrc (off len : Byte) (s : State) : Host.Outcome State Fault Refusal :=
  match s.mode.gate with
  | some st => .next (s.raise st 0#8)
  | none =>
    if s.len.toNat < off.toNat + len.toNat then .next (s.raise .addressRange s.len)
    else
      match s.buf.readSpan off.toNat len.toNat with
      | none => .fault .noSuchAddress
      | some bytes => .next (s.respond (checksum s.cfg bytes))

/-- CRCV off, len (R151): the check byte is the one after the span; the mismatch reports group 0 (R200). -/
def execCrcv (off len : Byte) (s : State) : Host.Outcome State Fault Refusal :=
  match s.mode.gate with
  | some st => .next (s.raise st 0#8)
  | none =>
    if s.len.toNat < off.toNat + len.toNat + 1 then .next (s.raise .addressRange s.len)
    else
      match s.buf.readSpan off.toNat len.toNat, s.buf.read (off.toNat + len.toNat) with
      | some bytes, some actual =>
        let expected := checksum s.cfg bytes
        if expected = actual then .next (s.respond expected)
        else .next (s.raise .checksumMismatch (info3 0x00#8 expected actual))
      | _, _ => .fault .noSuchAddress

end Sys2Proof.Machine
end

