-- ==== Sys2Proof/Machine/Framer.lean ====
section
/-! DEFINITION. The word register and framer commands (spec/43_framer.md R170 to R174): LDW, RDW, PACK, UNFRAME,
COMBINE. The last three are gated. -/

namespace Sys2Proof.Machine

/-- LDW Wd, imm16 (R170). -/
def execLdw (d : WordReg) (imm16 : Word) (s : State) : Host.Outcome State Fault Refusal :=
  .next ((s.setWord d imm16).respond 0#8)

/-- RDW Ws (R171). -/
def execRdw (src : WordReg) (s : State) : Host.Outcome State Fault Refusal :=
  .next (s.respond (s.word src))

/-- PACK Ws (R172): the frame is appended at LEN, whatever LEN is (R58), and reported. -/
def execPack (src : WordReg) (s : State) : Host.Outcome State Fault Refusal :=
  match s.mode.gate with
  | some st => .next (s.raise st 0#8)
  | none =>
    if BUF_BYTES < s.len.toNat + 3 then .next (s.raise .bufferOverflow s.len)
    else
      let v := s.word src
      match s.buf.writeSpan s.len.toNat (packWord s.cfg v) with
      | none => .fault .noSuchAddress
      | some m =>
        .next (((s.setBuf m).setLen (s.len + 3)).respond (frameBits (highByte v) (lowByte v) (frameChecksum s.cfg v)))

/-- What UNFRAME reports of an error of `unframe` (R81, R200). -/
def unframeErrorState (s : State) (count : Byte) : UnframeError → State
  | .lengthMismatch _ _ => s.raise .lengthMismatch (info2 count s.len)
  | .checksumMismatch i expected actual => s.raise .checksumMismatch (info3 (BitVec.ofNat 8 i) expected actual)

/-- UNFRAME count (R173): CountRange, then LengthMismatch, then the groups; all words are written or none. -/
def execUnframe (count : Byte) (s : State) : Host.Outcome State Fault Refusal :=
  match s.mode.gate with
  | some st => .next (s.raise st 0#8)
  | none =>
    if NW < count.toNat then .next (s.raise .countRange (BitVec.ofNat 8 NW))
    else if s.len.toNat ≠ 3 * count.toNat then .next (s.raise .lengthMismatch (info2 count s.len))
    else
      match s.buf.readSpan 0 s.len.toNat with
      | none => .fault .noSuchAddress
      | some bytes =>
        match unframe s.cfg bytes count.toNat with
        | .error e => .next (unframeErrorState s count e)
        | .ok words => .next ((s.setWords (writeWords s.w 0 words)).respond count)

/-- COMBINE n (R174): the limit is 4 whatever NW is. -/
def execCombine (n : Byte) (s : State) : Host.Outcome State Fault Refusal :=
  match s.mode.gate with
  | some st => .next (s.raise st 0#8)
  | none =>
    if n.toNat = 0 ∨ 4 < n.toNat then .next (s.raise .countRange 4#8)
    else
      match combineWords (s.firstWords n.toNat) with
      | none => .next (s.raise .countRange 4#8)
      | some v => .next (s.respond v)

end Sys2Proof.Machine
end

