-- ==== Sys2Proof/Machine/System.lean ====
section
/-! DEFINITION. The system and configuration commands (spec/40_system_config.md R100 to R106): RESET, CSRR, CSRW,
SELFTEST. None is gated. Encoding errors are the decoder's (R79), but for CSRW of a read-only register, which stays a
term of `Instr` and is IllegalCommand here too. -/

namespace Sys2Proof.Machine

/-- RESET (R100). -/
def execReset (s : State) : Host.Outcome State Fault Refusal :=
  .next (s.resetUnit.respond 0#8)

/-- CSRR csr (R102). -/
def execCsrr (csr : Csr) (s : State) : Host.Outcome State Fault Refusal :=
  .next (s.respond (s.csrValue csr))

/-- CSRW csr, imm8 (R104): IllegalCommand, then ConfigLocked, then the write (R195). -/
def execCsrw (csr : Csr) (imm8 : Byte) (s : State) : Host.Outcome State Fault Refusal :=
  match s.cfg.write csr imm8 with
  | none => .next (s.raise .illegalCommand 0#8)
  | some c => if s.mode.locked then .next (s.raise .configLocked 0#8) else .next ((s.setCfg c).respond 0#8)

/-- SELFTEST (R106): ConfigLocked, or TABLE and MODE written, and the computed check value reported. SelfTestFail is the
one error response that changes state (R197). -/
def execSelftest (s : State) : Host.Outcome State Fault Refusal :=
  if s.mode.locked then .next (s.raise .configLocked 0#8)
  else
    let v := checksum s.cfg CHECK_STRING
    .next (((s.setTable (crcTable s.cfg.poly)).setMode (selfTestMode v)).answer (selfTestStatus v)
      ((info2 CHECK_VALUE v).setWidth 64))

end Sys2Proof.Machine
end

