-- ==== Sys2Proof/Machine/Dispatch.lean ====
section
/-! DEFINITION. One arm per command: exec answers what the command does to a state whose port it has already left. -/

namespace Sys2Proof.Machine

open Sys2Proof

def exec (i : Instr) (s : State) : Host.Outcome State Fault Refusal :=
  match i with
  | .reset => Sys2Proof.Machine.execReset s
  | .csrr csr => Sys2Proof.Machine.execCsrr csr s
  | .csrw csr imm8 => Sys2Proof.Machine.execCsrw csr imm8 s
  | .selftest => Sys2Proof.Machine.execSelftest s
  | .clrb => Sys2Proof.Machine.execClrb s
  | .pushb imm8 => Sys2Proof.Machine.execPushb imm8 s
  | .stb addr imm8 => Sys2Proof.Machine.execStb addr imm8 s
  | .ldb addr => Sys2Proof.Machine.execLdb addr s
  | .crc off len => Sys2Proof.Machine.execCrc off len s
  | .crcv off len => Sys2Proof.Machine.execCrcv off len s
  | .ldw d imm16 => Sys2Proof.Machine.execLdw d imm16 s
  | .rdw src => Sys2Proof.Machine.execRdw src s
  | .pack src => Sys2Proof.Machine.execPack src s
  | .unframe count => Sys2Proof.Machine.execUnframe count s
  | .combine n => Sys2Proof.Machine.execCombine n s

end Sys2Proof.Machine
end

