-- ==== Sys2Proof/Machine/Step.lean ====
section
/-! DEFINITION. One step (spec/00_scope.md R8, spec/70_reset_and_hazards.md R231): take the oldest host action; a
command word is executed completely and answered, the reset input resets the unit; with nothing at the port the unit
holds its state. -/

namespace Sys2Proof.Machine

/-- One step of the machine (R231). A word that is no legal encoding is answered IllegalCommand (R191). -/
def step (s : State) : Host.Outcome State Fault Refusal :=
  match s.takeAction with
  | none => .next s
  | some (.reset, s') => .next s'.resetUnit
  | some (.command w, s') =>
    match decode w with
    | .ok i => exec i s'
    | .error _ => .next (s'.raise .illegalCommand 0#8)

/-- The state with a command word placed where the next step takes its command: first at the port. The word's bits at
`nbits` and above are zero (log entry 1). -/
def State.withFetchWord (s : State) (nbits w : Nat) : State :=
  s.issueFirst (.command (BitVec.ofNat 32 (w % 2 ^ nbits)))

end Sys2Proof.Machine
end

