-- ==== Sys2Proof/Safety.lean ====
section
/-! DEFINITION. The terms claims are made in: the invariant of spec/10_state.md R34, what a safe step is, what the host can
tell apart, and classes of commands and host actions. -/

namespace Sys2Proof.Machine

/-! ## The invariant (R34) -/

/-- R34 item 1: 0 <= LEN <= BUF_BYTES. -/
abbrev State.lenInBounds (s : State) : Prop := s.len.toNat ≤ BUF_BYTES

/-- R34 items 3 and 4: READY means the self-check passes, FAILED that it does not. -/
abbrev State.modeTellsCheck (s : State) : Prop :=
  (s.mode = .ready → checksum s.cfg CHECK_STRING = 0xF7#8) ∧ (s.mode = .failed → checksum s.cfg CHECK_STRING ≠ 0xF7#8)

/-- R34 item 5: TABLE belongs to CSR.POLY once MODE is not UNCONFIGURED. -/
abbrev State.tableMatchesPoly (s : State) : Prop :=
  s.mode ≠ .unconfigured → ∀ i : Fin 256, s.table[i] = crcByte s.cfg.poly 0x00#8 (BitVec.ofFin i)

/-- The invariant of R34 (item 2 is in the type of MODE), and the memory's canonical form. -/
abbrev State.Inv (s : State) : Prop :=
  s.lenInBounds ∧ s.modeTellsCheck ∧ s.tableMatchesPoly ∧ Memory.wf s.buf

/-- A step is safe when it has a next state and that state meets the invariant (R208, R231). -/
def Safe (o : Host.Outcome State Fault Refusal) : Prop := ∃ t, o = .next t ∧ t.Inv

/-! ## What the host can tell apart -/

/-- Two states that differ at most in TABLE and in the bytes of BUF at LEN and above (R30, R53), both memories in their
canonical form. -/
abbrev State.Indistinguishable (s t : State) : Prop :=
  s.cfg = t.cfg ∧ s.mode = t.mode ∧ s.len = t.len ∧ s.w = t.w ∧ s.port = t.port ∧ s.responses = t.responses ∧
    Memory.wf s.buf ∧ Memory.wf t.buf ∧ ∀ a < s.len.toNat, s.buf.read a = t.buf.read a

/-! ## Classes of words, commands and host actions -/

end Sys2Proof.Machine

namespace Sys2Proof

open Sys2Proof.Machine

/-- A word that is no legal encoding (R79, R87). -/
abbrev Illegal (v : Command) : Prop := ∃ e, decode v = .error e

/-- `v` is the one word that decodes to `i`. -/
abbrev EncodedAs (i : Instr) (v : Command) : Prop := ∀ x, decode x = .ok i ↔ x = v

/-- The gated commands (R16, R194). -/
def Instr.gated : Instr → Bool
  | .crc _ _ => true
  | .crcv _ _ => true
  | .pack _ => true
  | .unframe _ => true
  | .combine _ => true
  | .reset => false
  | .csrr _ => false
  | .csrw _ _ => false
  | .selftest => false
  | .clrb => false
  | .pushb _ => false
  | .stb _ _ => false
  | .ldb _ => false
  | .ldw _ _ => false
  | .rdw _ => false

/-- The commands that change no state (R24, R52, R59, R102, R123, R150, R151, R171, R174). -/
def Instr.readsOnly : Instr → Bool
  | .csrr _ => true
  | .ldb _ => true
  | .crc _ _ => true
  | .crcv _ _ => true
  | .rdw _ => true
  | .combine _ => true
  | .reset => false
  | .csrw _ _ => false
  | .selftest => false
  | .clrb => false
  | .pushb _ => false
  | .stb _ _ => false
  | .ldw _ _ => false
  | .pack _ => false
  | .unframe _ => false

/-- The commands that read word registers (R24). -/
def Instr.readsWords : Instr → Bool
  | .rdw _ => true
  | .pack _ => true
  | .combine _ => true
  | .reset => false
  | .csrr _ => false
  | .csrw _ _ => false
  | .selftest => false
  | .clrb => false
  | .pushb _ => false
  | .stb _ _ => false
  | .ldb _ => false
  | .crc _ _ => false
  | .crcv _ _ => false
  | .ldw _ _ => false
  | .unframe _ => false

/-- The error statuses a command can answer besides IllegalCommand, in the order they are tested (R195). -/
def Instr.errors : Instr → List Status
  | .reset => []
  | .csrr _ => []
  | .csrw _ _ => [.configLocked]
  | .selftest => [.configLocked, .selfTestFail]
  | .clrb => []
  | .pushb _ => [.bufferOverflow]
  | .stb _ _ => [.addressRange]
  | .ldb _ => [.addressRange]
  | .crc _ _ => [.notConfigured, .configInvalid, .addressRange]
  | .crcv _ _ => [.notConfigured, .configInvalid, .addressRange, .checksumMismatch]
  | .ldw _ _ => []
  | .rdw _ => []
  | .pack _ => [.notConfigured, .configInvalid, .bufferOverflow]
  | .unframe _ => [.notConfigured, .configInvalid, .countRange, .lengthMismatch, .checksumMismatch]
  | .combine _ => [.notConfigured, .configInvalid, .countRange]

end Sys2Proof

namespace Sys2Proof.Machine

/-- A host action that resets the unit: the reset input, or the word of RESET (R220). -/
def HostAction.resets : HostAction → Bool
  | .reset => true
  | .command v => v == 0x01000000#32

/-- A host action that issues the word of SELFTEST (R106). -/
def HostAction.selfTests : HostAction → Bool
  | .reset => false
  | .command v => v == 0x04000000#32

/-- A host action that is answered: a command word (R231). -/
def HostAction.answered : HostAction → Bool
  | .command _ => true
  | .reset => false

/-- The state with these command words at the port, and nothing else there. -/
def State.withProgram (s : State) (program : List Instr) : State :=
  s.setPort (program.map fun i => .command (encode i))

end Sys2Proof.Machine
end

