-- ==== Sys2Proof/Certificates/Slice0/Obligations.lean ====
section
/-! DEFINITION. The statements for the provers. Each docstring names the rule of spec/ it formalises. A record update
`(s with ...)` on the right of an equation says that every other piece of state is unchanged. -/

open Sys2Proof Sys2Proof.Machine

/-! ## Encoding (spec/30_encoding.md) -/

/-- The decoder reads back every legal command, with every operand (R71, R77, R86). -/
def Obligations.DecodeOfEncodeIsTheCommand : Prop :=
  ∀ i : Instr, i.wellFormed = true → decode (encode i) = .ok i

/-- A word that decodes is the encoding of what it decodes to, and that is legal: no two words mean one command and no
bit of a word is ignored (R71, R79, R86). -/
def Obligations.EncodeOfDecodeIsTheWord : Prop :=
  ∀ (v : Command) (i : Instr), decode v = .ok i → i.wellFormed = true ∧ encode i = v

/-- R87: every word either selects exactly one row of R86 and passes the field checks, or is illegal. -/
def Obligations.DecodingFollowsTheOpcodeTable : Prop :=
  ∀ v : Command,
    (∃ i, decode v = .ok i ∧ (opcodeTable.filter (·.selects v)) = [opcodeRow i] ∧ fieldsLegal v = true) ∨
      (Illegal v ∧ ((opcodeTable.filter (·.selects v)) = [] ∨
        ((opcodeTable.filter (·.selects v)).length = 1 ∧ fieldsLegal v = false)))

/-- R79 and R191: the five kinds of illegal word, each answered IllegalCommand with data 0 in every state, nothing else
changed. -/
def Obligations.IllegalWordsAreAnsweredIllegalCommand : Prop :=
  ∀ v : Command,
    (Illegal v ↔
      (fieldOp v ∉ [0x01#8, 0x02#8, 0x03#8, 0x04#8, 0x10#8, 0x11#8, 0x12#8, 0x13#8, 0x20#8, 0x21#8, 0x30#8, 0x31#8,
          0x32#8, 0x33#8, 0x34#8]) ∨
      ((fieldOp v ∈ [0x01#8, 0x04#8, 0x10#8] ∧ (fieldFa v ≠ 0 ∨ fieldFb v ≠ 0 ∨ fieldFc v ≠ 0)) ∨
        (fieldOp v = 0x02#8 ∧ (fieldFb v ≠ 0 ∨ fieldFc v ≠ 0)) ∨ (fieldOp v = 0x03#8 ∧ fieldFb v ≠ 0) ∨
        (fieldOp v ∈ [0x11#8, 0x13#8, 0x33#8, 0x34#8] ∧ (fieldFa v ≠ 0 ∨ fieldFb v ≠ 0)) ∨
        (fieldOp v ∈ [0x12#8, 0x20#8, 0x21#8] ∧ fieldFa v ≠ 0) ∨
        (fieldOp v ∈ [0x31#8, 0x32#8] ∧ (fieldFb v ≠ 0 ∨ fieldFc v ≠ 0))) ∨
      (fieldOp v = 0x02#8 ∧ 0x04 < (fieldFa v).toNat) ∨
      (fieldOp v = 0x03#8 ∧ 0x02 < (fieldFa v).toNat) ∨
      (fieldOp v ∈ [0x30#8, 0x31#8, 0x32#8] ∧ NW ≤ (fieldFa v).toNat)) ∧
    (∀ (s : State) (rest : List HostAction), Illegal v → s.port = .command v :: rest →
      step s = .next { s with port := rest, responses := s.responses ++ [⟨.illegalCommand, 0#64⟩] })

/-- Words written out from the bit patterns of R86, one of each family, decode to the commands they stand for. -/
def Obligations.WrittenOutWordsDecode : Prop :=
  decode 0x03020055#32 = .ok (.csrw .xorOut 0x55) ∧ decode 0x12000568#32 = .ok (.stb 5 0x68) ∧
    decode 0x21000302#32 = .ok (.crcv 3 2) ∧ decode 0x30010304#32 = .ok (.ldw 1 0x0304) ∧
    decode 0x33000002#32 = .ok (.unframe 2)

/-! ## The step and reset (spec/00_scope.md, spec/70_reset_and_hazards.md) -/

/-- R8, R231: a command word that decodes, first at the port (log entry 1), leaves the port and is executed completely. -/
def Obligations.StepRunsTheDecodedCommand : Prop :=
  ∀ (s : State) (v : Command) (rest : List HostAction) (i : Instr), s.port = .command v :: rest → decode v = .ok i →
    step s = exec i { s with port := rest }

/-- R101: the reset input has the effect of the RESET command on the unit, and produces no response. -/
def Obligations.ResetInputResetsWithoutAResponse : Prop :=
  ∀ (s : State) (rest : List HostAction), s.port = .reset :: rest →
    ∃ t u, step s = .next t ∧ exec .reset { s with port := rest } = .next u ∧ t.responses = s.responses ∧
      t = { u with responses := s.responses } ∧ t = { State.reset with port := rest, responses := s.responses }

/-- R231: with no action left at the port the unit holds its state (as a step: log entry 3). -/
def Obligations.IdleUnitHoldsItsState : Prop :=
  ∀ s : State, s.port = [] → step s = .next s

/-- R32: the value after reset of every piece of state. -/
def Obligations.ResetLeavesTheStatedValues : Prop :=
  State.reset.cfg.poly = 0x31#8 ∧ State.reset.cfg.init = 0xFF#8 ∧ State.reset.cfg.xorOut = 0x00#8 ∧
    State.reset.mode = .unconfigured ∧ State.reset.csrValue .status = 0x00#8 ∧
    (∀ i : Fin 256, State.reset.table[i] = 0x00#8) ∧ (∀ a < BUF_BYTES, State.reset.buf.read a = some 0x00#8) ∧
    State.reset.len = 0 ∧ (∀ r : WordReg, State.reset.word r = 0x0000#16)

/-- The invariant of R34 (and the memory's canonical form) holds at reset. -/
def Obligations.ResetStateMeetsTheInvariant : Prop := State.reset.Inv

/-- R34 items 1 to 5, as an invariant of every step: from any state that meets it, not only from reset. -/
def Obligations.EveryStepKeepsTheInvariant : Prop :=
  ∀ s t : State, s.Inv → step s = .next t → t.Inv

/-- R231 and R208 for one action: in every state that meets the invariant, a command word, whatever its bits, is
answered by exactly one response, and the reset input by none. -/
def Obligations.EveryActionCompletes : Prop :=
  ∀ (s : State) (a : HostAction) (rest : List HostAction), s.Inv → s.port = a :: rest →
    ∃ t, step s = .next t ∧ t.Inv ∧ t.port = rest ∧
      (a.answered = true → ∃ r, t.responses = s.responses ++ [r]) ∧ (a.answered = false → t.responses = s.responses)

/-- R231: a run over a finite list of host actions ends with the list exhausted and one response for each command word,
in order after those given before, none for the reset input. -/
def Obligations.RunAnswersEveryCommandWord : Prop :=
  ∀ s : State, s.Inv → ∃ (t : State) (rs : List Response), core.run s.port.length s = .next t ∧ t.port = [] ∧
    t.Inv ∧ t.responses = s.responses ++ rs ∧ rs.length = (s.port.filter (·.answered)).length

/-- Where the model stops (log entry 5): only in a state that R34 item 1 excludes, on an address that does not exist. -/
def Obligations.AddressesThatDoNotExistFault : Prop :=
  ∀ (s : State) (imm8 addr : Byte), BUF_BYTES < s.len.toNat →
    exec (.pushb imm8) s = .fault .noSuchAddress ∧
    (BUF_BYTES ≤ addr.toNat → addr.toNat < s.len.toNat →
      exec (.stb addr imm8) s = .fault .noSuchAddress ∧ exec (.ldb addr) s = .fault .noSuchAddress ∧
      (s.mode = .ready → exec (.crc addr 1) s = .fault .noSuchAddress ∧
        exec (.crcv addr 0) s = .fault .noSuchAddress))

/-! ## System and configuration commands (spec/40_system_config.md) -/

/-- R100 RESET: encoding, illegal forms and effect, in every MODE; and no other command leaves READY or FAILED. -/
def Obligations.ResetCommandRestoresTheResetState : Prop :=
  EncodedAs .reset 0x01000000#32 ∧
    (∀ v, fieldOp v = 0x01#8 → v.extractLsb' 0 24 ≠ 0 → Illegal v) ∧
    (∀ s : State, ∃ t, exec .reset s = .next t ∧ t.cfg = ⟨0x31#8, 0xFF#8, 0x00#8⟩ ∧ t.mode = .unconfigured ∧
      (∀ i : Fin 256, t.table[i] = 0x00#8) ∧ (∀ a < BUF_BYTES, t.buf.read a = some 0x00#8) ∧ t.len = 0 ∧
      (∀ r, t.word r = 0x0000#16) ∧ t.port = s.port ∧ t.responses = s.responses ++ [⟨.ok, 0#64⟩]) ∧
    ∀ (i : Instr) (s t : State), i ≠ .reset → s.mode ≠ .unconfigured → exec i s = .next t → t.mode = s.mode

/-- R102 CSRR: encoding, illegal forms, the value of each CSR, no state changed. -/
def Obligations.CsrrReadsEachRegister : Prop :=
  (EncodedAs (.csrr .poly) 0x02000000#32 ∧ EncodedAs (.csrr .init) 0x02010000#32 ∧
    EncodedAs (.csrr .xorOut) 0x02020000#32 ∧ EncodedAs (.csrr .status) 0x02030000#32 ∧
    EncodedAs (.csrr .len) 0x02040000#32) ∧
  (∀ v, fieldOp v = 0x02#8 → 0x04 < (fieldFa v).toNat ∨ fieldFb v ≠ 0 ∨ fieldFc v ≠ 0 → Illegal v) ∧
  ∀ s : State,
    exec (.csrr .poly) s = .next { s with responses := s.responses ++ [⟨.ok, s.cfg.poly.setWidth 64⟩] } ∧
    exec (.csrr .init) s = .next { s with responses := s.responses ++ [⟨.ok, s.cfg.init.setWidth 64⟩] } ∧
    exec (.csrr .xorOut) s = .next { s with responses := s.responses ++ [⟨.ok, s.cfg.xorOut.setWidth 64⟩] } ∧
    (s.mode = .unconfigured → exec (.csrr .status) s = .next { s with responses := s.responses ++ [⟨.ok, 0#64⟩] }) ∧
    (s.mode = .ready → exec (.csrr .status) s = .next { s with responses := s.responses ++ [⟨.ok, 1#64⟩] }) ∧
    (s.mode = .failed → exec (.csrr .status) s = .next { s with responses := s.responses ++ [⟨.ok, 2#64⟩] }) ∧
    exec (.csrr .len) s = .next { s with responses := s.responses ++ [⟨.ok, s.len.setWidth 64⟩] }

/-- R104 CSRW: encoding, illegal forms, the errors in order (IllegalCommand before ConfigLocked), the write. -/
def Obligations.CsrwWritesOnlyAnUncheckedConfiguration : Prop :=
  ∀ (imm8 : Byte),
    EncodedAs (.csrw .poly imm8) (0x03000000#32 ||| imm8.setWidth 32) ∧
    EncodedAs (.csrw .init imm8) (0x03010000#32 ||| imm8.setWidth 32) ∧
    EncodedAs (.csrw .xorOut imm8) (0x03020000#32 ||| imm8.setWidth 32) ∧
    (∀ v, fieldOp v = 0x03#8 → 0x02 < (fieldFa v).toNat ∨ fieldFb v ≠ 0 → Illegal v) ∧
    ∀ s : State,
      (∀ csr, csr = .status ∨ csr = .len →
        exec (.csrw csr imm8) s = .next { s with responses := s.responses ++ [⟨.illegalCommand, 0#64⟩] }) ∧
      (∀ csr, csr = .poly ∨ csr = .init ∨ csr = .xorOut → s.mode ≠ .unconfigured →
        exec (.csrw csr imm8) s = .next { s with responses := s.responses ++ [⟨.configLocked, 0#64⟩] }) ∧
      (s.mode = .unconfigured →
        exec (.csrw .poly imm8) s = .next { s with
          cfg := ⟨imm8, s.cfg.init, s.cfg.xorOut⟩, responses := s.responses ++ [⟨.ok, 0#64⟩] } ∧
        exec (.csrw .init imm8) s = .next { s with
          cfg := ⟨s.cfg.poly, imm8, s.cfg.xorOut⟩, responses := s.responses ++ [⟨.ok, 0#64⟩] } ∧
        exec (.csrw .xorOut imm8) s = .next { s with
          cfg := ⟨s.cfg.poly, s.cfg.init, imm8⟩, responses := s.responses ++ [⟨.ok, 0#64⟩] })

/-- R106 SELFTEST: encoding, illegal forms, the lock, TABLE, MODE and the response for a check that passes or fails. -/
def Obligations.SelftestChecksTheConfigurationOnce : Prop :=
  EncodedAs .selftest 0x04000000#32 ∧
    (∀ v, fieldOp v = 0x04#8 → v.extractLsb' 0 24 ≠ 0 → Illegal v) ∧
    ∀ s : State,
      (s.mode ≠ .unconfigured →
        exec .selftest s = .next { s with responses := s.responses ++ [⟨.configLocked, 0#64⟩] }) ∧
      (s.mode = .unconfigured → ∃ (table : Vector Byte 256) (check : Byte),
        check = checksum s.cfg [0x31, 0x32, 0x33, 0x34, 0x35, 0x36, 0x37, 0x38, 0x39] ∧
        (∀ i : Fin 256, table[i] = crcByte s.cfg.poly 0x00#8 (BitVec.ofFin i)) ∧
        (check = 0xF7#8 → exec .selftest s = .next { s with
          table := table, mode := .ready, responses := s.responses ++ [⟨.ok, (0xF7#8 ++ check).setWidth 64⟩] }) ∧
        (check ≠ 0xF7#8 → exec .selftest s = .next { s with
          table := table, mode := .failed,
          responses := s.responses ++ [⟨.selfTestFail, (0xF7#8 ++ check).setWidth 64⟩] }))

/-- R222: after reset SELFTEST passes with (OK, 0xF7F7) and MODE becomes READY. -/
def Obligations.SelftestPassesAfterReset : Prop :=
  ∃ t, exec .selftest State.reset = .next t ∧ t.mode = .ready ∧ t.responses = [⟨.ok, 0xF7F7#64⟩]

/-- R109: for every polynomial and initial value exactly one final xor passes the self-check, so a passing self-check
does not prove the normative triple; with polynomial 0 every non-empty input has the same checksum. -/
def Obligations.OneXorOutPassesForEachPolyAndInit : Prop :=
  (∀ poly init xorOut : Byte,
    checksum ⟨poly, init, xorOut⟩ CHECK_STRING = CHECK_VALUE ↔
      xorOut = crcRaw poly init CHECK_STRING ^^^ CHECK_VALUE) ∧
    ∀ (init xorOut b : Byte) (bytes : List Byte), checksum ⟨0x00#8, init, xorOut⟩ (b :: bytes) = xorOut

/-- R108: what becomes of MODE on each host action. -/
def Obligations.ModeFollowsItsLifeCycle : Prop :=
  ∀ (s t : State) (a : HostAction) (rest : List HostAction), s.port = a :: rest → step s = .next t →
    t.mode = (if a.resets then .unconfigured
      else if a.selfTests ∧ s.mode = .unconfigured then
        (if checksum s.cfg CHECK_STRING = 0xF7#8 then .ready else .failed)
      else s.mode)

/-- R36: SELFTEST leaves MODE = UNCONFIGURED, CSRW writes nothing outside it, and over every run without a reset after
that the configuration, MODE and TABLE stay as they are. -/
def Obligations.CheckedConfigurationIsImmutable : Prop :=
  (∀ s t : State, exec .selftest s = .next t → t.mode ≠ .unconfigured) ∧
    (∀ (s t : State) (csr : Csr) (v : Byte), s.mode ≠ .unconfigured → exec (.csrw csr v) s = .next t → t.cfg = s.cfg) ∧
    ∀ (k : Nat) (s t : State), s.mode ≠ .unconfigured → (∀ a ∈ s.port.take k, a.resets = false) →
      core.run k s = .next t → t.cfg = s.cfg ∧ t.mode = s.mode ∧ t.table = s.table

/-- R34 item 6, step by step: while MODE = UNCONFIGURED the configuration is the normative one, unless a CSRW has
succeeded. -/
def Obligations.UnwrittenConfigurationIsNormative : Prop :=
  ∀ s t : State, (s.mode = .unconfigured → s.cfg = ⟨0x31#8, 0xFF#8, 0x00#8⟩) → step s = .next t →
    (t.mode = .unconfigured → t.cfg = ⟨0x31#8, 0xFF#8, 0x00#8⟩) ∨
      ∃ v rest csr imm8, s.port = .command v :: rest ∧ decode v = .ok (.csrw csr imm8) ∧
        t.responses = s.responses ++ [⟨.ok, 0#64⟩]

/-! ## Buffer commands (spec/41_buffer.md) -/

/-- R120 CLRB: LEN becomes 0, BUF and everything else stay (that the bytes stay is the choice of log entry 6, which
follows R120's pseudocode; no command can read them). -/
def Obligations.ClrbEmptiesTheBuffer : Prop :=
  EncodedAs .clrb 0x10000000#32 ∧
    (∀ v, fieldOp v = 0x10#8 → v.extractLsb' 0 24 ≠ 0 → Illegal v) ∧
    ∀ s : State, exec .clrb s = .next { s with len := 0, responses := s.responses ++ [⟨.ok, 0#64⟩] }

/-- R121 PUSHB: BufferOverflow when the buffer is full, else one byte appended at LEN. -/
def Obligations.PushbAppendsOneByte : Prop :=
  ∀ imm8 : Byte,
    EncodedAs (.pushb imm8) (0x11000000#32 ||| imm8.setWidth 32) ∧
    (∀ v, fieldOp v = 0x11#8 → fieldFa v ≠ 0 ∨ fieldFb v ≠ 0 → Illegal v) ∧
    ∀ s : State,
      (s.len.toNat = BUF_BYTES →
        exec (.pushb imm8) s = .next { s with
          responses := s.responses ++ [⟨.bufferOverflow, s.len.setWidth 64⟩] }) ∧
      (s.len.toNat < BUF_BYTES → Memory.wf s.buf → ∃ m,
        exec (.pushb imm8) s = .next { s with
          buf := m, len := s.len + 1, responses := s.responses ++ [⟨.ok, (s.len + 1).setWidth 64⟩] } ∧
        (s.len + 1).toNat = s.len.toNat + 1 ∧ m.read s.len.toNat = some imm8 ∧
        ∀ a, a ≠ s.len.toNat → m.read a = s.buf.read a)

/-- R122 STB: AddressRange at LEN and above, else one valid byte overwritten, LEN unchanged. -/
def Obligations.StbOverwritesAValidByte : Prop :=
  ∀ addr imm8 : Byte,
    EncodedAs (.stb addr imm8) (0x12000000#32 ||| (addr.setWidth 32 <<< 8) ||| imm8.setWidth 32) ∧
    (∀ v, fieldOp v = 0x12#8 → fieldFa v ≠ 0 → Illegal v) ∧
    ∀ s : State,
      (s.len.toNat ≤ addr.toNat →
        exec (.stb addr imm8) s = .next { s with
          responses := s.responses ++ [⟨.addressRange, s.len.setWidth 64⟩] }) ∧
      (addr.toNat < s.len.toNat → s.len.toNat ≤ BUF_BYTES → Memory.wf s.buf → ∃ m,
        exec (.stb addr imm8) s = .next { s with buf := m, responses := s.responses ++ [⟨.ok, 0#64⟩] } ∧
        m.read addr.toNat = some imm8 ∧ ∀ a, a ≠ addr.toNat → m.read a = s.buf.read a)

/-- R123 LDB: AddressRange at LEN and above, else the byte, nothing changed. -/
def Obligations.LdbReadsAValidByte : Prop :=
  ∀ addr : Byte,
    EncodedAs (.ldb addr) (0x13000000#32 ||| addr.setWidth 32) ∧
    (∀ v, fieldOp v = 0x13#8 → fieldFa v ≠ 0 ∨ fieldFb v ≠ 0 → Illegal v) ∧
    ∀ s : State,
      (s.len.toNat ≤ addr.toNat →
        exec (.ldb addr) s = .next { s with
          responses := s.responses ++ [⟨.addressRange, s.len.setWidth 64⟩] }) ∧
      (addr.toNat < s.len.toNat → s.len.toNat ≤ BUF_BYTES → ∃ b, s.buf.read addr.toNat = some b ∧
        exec (.ldb addr) s = .next { s with responses := s.responses ++ [⟨.ok, b.setWidth 64⟩] })

/-- R124 item 1: CLRB and then PUSHB of k bytes, k at most BUF_BYTES, leaves LEN = k and exactly those bytes, and every
one of the commands is answered OK. -/
def Obligations.LoadedBytesReadBack : Prop :=
  ∀ (s : State) (bytes : List Byte), s.Inv → bytes.length ≤ BUF_BYTES →
    ∃ (t : State) (rs : List Response),
      core.run (1 + bytes.length) (s.withProgram (.clrb :: bytes.map .pushb)) = .next t ∧
      t.len.toNat = bytes.length ∧ t.buf.readSpan 0 bytes.length = some bytes ∧
      t.responses = s.responses ++ rs ∧ rs.length = 1 + bytes.length ∧ (∀ r ∈ rs, r.status = .ok) ∧
      t.cfg = s.cfg ∧ t.mode = s.mode ∧ t.table = s.table ∧ t.w = s.w

/-- R124 item 2: LDB after STB gives the byte stored. -/
def Obligations.LdbAfterStbGivesTheByte : Prop :=
  ∀ (s t : State) (addr imm8 : Byte), s.Inv → addr.toNat < s.len.toNat → exec (.stb addr imm8) s = .next t →
    exec (.ldb addr) t = .next { t with responses := t.responses ++ [⟨.ok, imm8.setWidth 64⟩] }

/-! ## The checksum function and its commands (spec/42_checksum.md) -/

/-- R141: one bit step, on the numbers the two bytes stand for: shifted one place up, reduced mod 256, the polynomial
exclusive-ored in exactly when bit 7 was 1. -/
def Obligations.BitStepShiftsAndFoldsTheTopBit : Prop :=
  ∀ poly c : Byte,
    (128 ≤ c.toNat → (crcBitStep poly c).toNat = (2 * c.toNat % 256) ^^^ poly.toNat) ∧
      (c.toNat < 128 → (crcBitStep poly c).toNat = 2 * c.toNat % 256)

/-- R143: the empty sequence, one byte more, a sequence in two pieces, and the accumulator after each byte of the check
string. -/
def Obligations.ByteSequencesFoldInOrder : Prop :=
  (∀ poly c : Byte, crcRaw poly c [] = c) ∧
    (∀ (poly c b : Byte) (rest : List Byte), crcRaw poly c (b :: rest) = crcRaw poly (crcByte poly c b) rest) ∧
    (∀ (poly c : Byte) (x y : List Byte), crcRaw poly c (x ++ y) = crcRaw poly (crcRaw poly c x) y) ∧
    (List.range 9).map (fun k => crcRaw 0x31 0xFF (CHECK_STRING.take (k + 1))) =
      [0x58, 0x60, 0x2D, 0xCB, 0x9D, 0x16, 0xB7, 0x54, 0xF7]

/-- R146: a bit step is linear over exclusive or, and so is the table. -/
def Obligations.BitStepAndTableAreLinear : Prop :=
  (∀ poly c1 c2 : Byte, crcBitStep poly (c1 ^^^ c2) = crcBitStep poly c1 ^^^ crcBitStep poly c2) ∧
    (∀ poly : Byte, crcBitStep poly 0x00#8 = 0x00#8) ∧
    ∀ poly i j : Byte, (crcTable poly)[(i ^^^ j).toFin] = (crcTable poly)[i.toFin] ^^^ (crcTable poly)[j.toFin]

/-- R30 and R142: once the configuration has been checked, every checksum is the one computed through TABLE, one look-up
per byte. -/
def Obligations.TableComputesEveryChecksum : Prop :=
  ∀ (s : State) (bytes : List Byte), s.Inv → s.mode ≠ .unconfigured →
    checksum s.cfg bytes = bytes.foldl (fun acc b => s.table[(acc ^^^ b).toFin]) s.cfg.init ^^^ s.cfg.xorOut

/-- 95_test_vectors.md section 2.2: with xorOut = 0, data followed by its own checksum has the checksum 0. -/
def Obligations.DataWithItsChecksumGivesZero : Prop :=
  ∀ (poly init : Byte) (bytes : List Byte),
    checksum ⟨poly, init, 0x00#8⟩ (bytes ++ [checksum ⟨poly, init, 0x00#8⟩ bytes]) = 0x00#8

/-- R152: the values the source gives. -/
def Obligations.SourceChecksumValuesHold : Prop :=
  ∀ cfg : ChecksumConfig, cfg = ⟨0x31#8, 0xFF#8, 0x00#8⟩ →
    checksum cfg [0x31] = 0x58#8 ∧ checksum cfg [0x31, 0x32, 0x33, 0x34] = 0xCB#8 ∧
    checksum cfg [0x31, 0x32, 0x33, 0x34, 0x35, 0x36, 0x37, 0x38, 0x39] = 0xF7#8 ∧
    packWord cfg 0x1234 = [0x12, 0x34, 0x37] ∧ packWord cfg 0x0000 = [0x00, 0x00, 0x81] ∧
    checksum cfg [0x01, 0x02] = 0x17#8 ∧ checksum cfg [0x03, 0x04] = 0x68#8 ∧ checksum cfg [0x03, 0x04] ≠ 0x00#8

/-- R150 CRC: encoding, illegal forms, the errors in order, and the checksum of the span; no state changes. -/
def Obligations.CrcAnswersTheChecksumOfASpan : Prop :=
  ∀ off len : Byte,
    EncodedAs (.crc off len) (0x20000000#32 ||| (off.setWidth 32 <<< 8) ||| len.setWidth 32) ∧
    (∀ v, fieldOp v = 0x20#8 → fieldFa v ≠ 0 → Illegal v) ∧
    ∀ s : State,
      (s.mode = .unconfigured →
        exec (.crc off len) s = .next { s with responses := s.responses ++ [⟨.notConfigured, 0#64⟩] }) ∧
      (s.mode = .failed →
        exec (.crc off len) s = .next { s with responses := s.responses ++ [⟨.configInvalid, 0#64⟩] }) ∧
      (s.mode = .ready → s.len.toNat < off.toNat + len.toNat →
        exec (.crc off len) s = .next { s with
          responses := s.responses ++ [⟨.addressRange, s.len.setWidth 64⟩] }) ∧
      (s.mode = .ready → off.toNat + len.toNat ≤ s.len.toNat → s.len.toNat ≤ BUF_BYTES → ∃ bytes : List Byte,
        bytes.length = len.toNat ∧ (∀ i < len.toNat, s.buf.read (off.toNat + i) = bytes[i]?) ∧
        exec (.crc off len) s = .next { s with
          responses := s.responses ++ [⟨.ok, (checksum s.cfg bytes).setWidth 64⟩] })

/-- R151 CRCV: encoding, illegal forms, the errors in order, and the comparison of the span's checksum with the byte
after it; no state changes. -/
def Obligations.CrcvComparesTheByteAfterTheSpan : Prop :=
  ∀ off len : Byte,
    EncodedAs (.crcv off len) (0x21000000#32 ||| (off.setWidth 32 <<< 8) ||| len.setWidth 32) ∧
    (∀ v, fieldOp v = 0x21#8 → fieldFa v ≠ 0 → Illegal v) ∧
    ∀ s : State,
      (s.mode = .unconfigured →
        exec (.crcv off len) s = .next { s with responses := s.responses ++ [⟨.notConfigured, 0#64⟩] }) ∧
      (s.mode = .failed →
        exec (.crcv off len) s = .next { s with responses := s.responses ++ [⟨.configInvalid, 0#64⟩] }) ∧
      (s.mode = .ready → s.len.toNat < off.toNat + len.toNat + 1 →
        exec (.crcv off len) s = .next { s with
          responses := s.responses ++ [⟨.addressRange, s.len.setWidth 64⟩] }) ∧
      (s.mode = .ready → off.toNat + len.toNat + 1 ≤ s.len.toNat → s.len.toNat ≤ BUF_BYTES →
        ∃ (bytes : List Byte) (actual : Byte),
        bytes.length = len.toNat ∧ (∀ i < len.toNat, s.buf.read (off.toNat + i) = bytes[i]?) ∧
        s.buf.read (off.toNat + len.toNat) = some actual ∧
        (checksum s.cfg bytes = actual → exec (.crcv off len) s = .next { s with
          responses := s.responses ++ [⟨.ok, (checksum s.cfg bytes).setWidth 64⟩] }) ∧
        (checksum s.cfg bytes ≠ actual → exec (.crcv off len) s = .next { s with
          responses := s.responses ++
            [⟨.checksumMismatch, (0x00#8 ++ checksum s.cfg bytes ++ actual).setWidth 64⟩] }))

/-! ## The framer's functions (spec/43_framer.md section 1) -/

/-- R160, R162, R165: `unframe` gives words exactly when the buffer is the frames of those words and the count is their
number; in particular the round trip, for every configuration. -/
def Obligations.UnframeAcceptsExactlyFrames : Prop :=
  ∀ (cfg : ChecksumConfig) (bytes : List Byte) (count : Nat) (words : List Word),
    unframe cfg bytes count = .ok words ↔
      words.length = count ∧ bytes = words.flatMap fun v =>
        [v.extractLsb' 8 8, v.extractLsb' 0 8, checksum cfg [v.extractLsb' 8 8, v.extractLsb' 0 8]]

/-- R162, R199: a buffer of another length is LengthMismatch; otherwise ChecksumMismatch names the lowest group whose
check byte is wrong, with the recomputed and the found byte. -/
def Obligations.UnframeReportsTheFirstMismatch : Prop :=
  ∀ (cfg : ChecksumConfig) (bytes : List Byte) (count : Nat),
    (bytes.length ≠ 3 * count ↔ unframe cfg bytes count = .error (.lengthMismatch bytes.length count)) ∧
    ∀ (i : Nat) (expected actual : Byte),
      unframe cfg bytes count = .error (.checksumMismatch i expected actual) ↔
        bytes.length = 3 * count ∧ i < count ∧
        (∃ hi lo, bytes[3 * i]? = some hi ∧ bytes[3 * i + 1]? = some lo ∧ bytes[3 * i + 2]? = some actual ∧
          expected = checksum cfg [hi, lo] ∧ expected ≠ actual) ∧
        ∀ j < i, ∃ hi lo, bytes[3 * j]? = some hi ∧ bytes[3 * j + 1]? = some lo ∧
          bytes[3 * j + 2]? = some (checksum cfg [hi, lo])

/-- R164: `combine_words` by its equations, no value outside 1 to 4 words, and where each word stands. -/
def Obligations.CombineWordsIsBigEndian : Prop :=
  (∀ v : Word, combineWords [v] = some (v.setWidth 64)) ∧
    (∀ (words : List Word) (x : Word), 1 ≤ words.length → words.length ≤ 3 → ∃ acc, combineWords words = some acc ∧
      combineWords (words ++ [x]) = some ((acc <<< 16) ||| x.setWidth 64)) ∧
    (∀ words : List Word, words.length = 0 ∨ 4 < words.length → combineWords words = none) ∧
    ∀ (words : List Word) (value : Data), combineWords words = some value →
      value.toNat < 2 ^ (16 * words.length) ∧
      ∀ j (h : j < words.length), value.extractLsb' (16 * (words.length - 1 - j)) 16 = words[j]

/-! ## Word register and framer commands (spec/43_framer.md sections 2 to 5) -/

/-- R170 LDW: one register written in every MODE, every other one unchanged. -/
def Obligations.LdwWritesOneRegister : Prop :=
  ∀ (d : WordReg) (imm16 : Word),
    EncodedAs (.ldw d imm16) (0x30000000#32 ||| (BitVec.ofNat 32 d.val <<< 16) ||| imm16.setWidth 32) ∧
    (∀ v, fieldOp v = 0x30#8 → NW ≤ (fieldFa v).toNat → Illegal v) ∧
    ∀ s : State, ∃ words : Vector Word NW,
      exec (.ldw d imm16) s = .next { s with w := words, responses := s.responses ++ [⟨.ok, 0#64⟩] } ∧
      words[d] = imm16 ∧ ∀ r : WordReg, r ≠ d → words[r] = s.w[r]

/-- R171 RDW: the register's value, nothing changed. -/
def Obligations.RdwReadsOneRegister : Prop :=
  ∀ src : WordReg,
    EncodedAs (.rdw src) (0x31000000#32 ||| (BitVec.ofNat 32 src.val <<< 16)) ∧
    (∀ v, fieldOp v = 0x31#8 → NW ≤ (fieldFa v).toNat ∨ fieldFb v ≠ 0 ∨ fieldFc v ≠ 0 → Illegal v) ∧
    ∀ s : State, exec (.rdw src) s = .next { s with responses := s.responses ++ [⟨.ok, s.w[src].setWidth 64⟩] }

/-- R172 PACK: encoding, illegal forms, the errors in order, and the frame appended at LEN and reported. -/
def Obligations.PackAppendsTheFrame : Prop :=
  ∀ src : WordReg,
    EncodedAs (.pack src) (0x32000000#32 ||| (BitVec.ofNat 32 src.val <<< 16)) ∧
    (∀ v, fieldOp v = 0x32#8 → NW ≤ (fieldFa v).toNat ∨ fieldFb v ≠ 0 ∨ fieldFc v ≠ 0 → Illegal v) ∧
    ∀ s : State,
      (s.mode = .unconfigured →
        exec (.pack src) s = .next { s with responses := s.responses ++ [⟨.notConfigured, 0#64⟩] }) ∧
      (s.mode = .failed →
        exec (.pack src) s = .next { s with responses := s.responses ++ [⟨.configInvalid, 0#64⟩] }) ∧
      (s.mode = .ready → BUF_BYTES < s.len.toNat + 3 →
        exec (.pack src) s = .next { s with
          responses := s.responses ++ [⟨.bufferOverflow, s.len.setWidth 64⟩] }) ∧
      (s.mode = .ready → s.len.toNat + 3 ≤ BUF_BYTES → Memory.wf s.buf → ∃ (m : Memory) (hi lo ck : Byte),
        hi = s.w[src].extractLsb' 8 8 ∧ lo = s.w[src].extractLsb' 0 8 ∧ ck = checksum s.cfg [hi, lo] ∧
        exec (.pack src) s = .next { s with
          buf := m, len := s.len + 3, responses := s.responses ++ [⟨.ok, (hi ++ lo ++ ck).setWidth 64⟩] } ∧
        (s.len + 3).toNat = s.len.toNat + 3 ∧
        m.read s.len.toNat = some hi ∧ m.read (s.len.toNat + 1) = some lo ∧ m.read (s.len.toNat + 2) = some ck ∧
        ∀ a, a < s.len.toNat ∨ s.len.toNat + 3 ≤ a → m.read a = s.buf.read a)

/-- R173 UNFRAME: encoding, illegal forms, the errors in order, and on success exactly W[0..count-1] written; no error
writes a register. -/
def Obligations.UnframeWritesAllWordsOrNone : Prop :=
  ∀ count : Byte,
    EncodedAs (.unframe count) (0x33000000#32 ||| count.setWidth 32) ∧
    (∀ v, fieldOp v = 0x33#8 → fieldFa v ≠ 0 ∨ fieldFb v ≠ 0 → Illegal v) ∧
    ∀ s : State,
      (s.mode = .unconfigured →
        exec (.unframe count) s = .next { s with responses := s.responses ++ [⟨.notConfigured, 0#64⟩] }) ∧
      (s.mode = .failed →
        exec (.unframe count) s = .next { s with responses := s.responses ++ [⟨.configInvalid, 0#64⟩] }) ∧
      (s.mode = .ready → NW < count.toNat →
        exec (.unframe count) s = .next { s with
          responses := s.responses ++ [⟨.countRange, BitVec.ofNat 64 NW⟩] }) ∧
      (s.mode = .ready → count.toNat ≤ NW → s.len.toNat ≠ 3 * count.toNat →
        exec (.unframe count) s = .next { s with
          responses := s.responses ++ [⟨.lengthMismatch, (count ++ s.len).setWidth 64⟩] }) ∧
      (s.mode = .ready → count.toNat ≤ NW → s.len.toNat = 3 * count.toNat → ∃ bytes : List Byte,
        bytes.length = s.len.toNat ∧ (∀ i < s.len.toNat, s.buf.read i = bytes[i]?) ∧
        (∀ i expected actual, unframe s.cfg bytes count.toNat = .error (.checksumMismatch i expected actual) →
          exec (.unframe count) s = .next { s with
            responses := s.responses ++
              [⟨.checksumMismatch, (BitVec.ofNat 8 i ++ expected ++ actual).setWidth 64⟩] }) ∧
        (∀ words, unframe s.cfg bytes count.toNat = .ok words → ∃ v : Vector Word NW,
          exec (.unframe count) s = .next { s with
            w := v, responses := s.responses ++ [⟨.ok, count.setWidth 64⟩] } ∧
          (∀ r : WordReg, r.val < count.toNat → words[r.val]? = some v[r]) ∧
          ∀ r : WordReg, count.toNat ≤ r.val → v[r] = s.w[r]) ∧
        ∀ len count', unframe s.cfg bytes count.toNat ≠ .error (.lengthMismatch len count'))

/-- R174 COMBINE: encoding, illegal forms, the errors in order, and W0 upward joined with W0 most significant. -/
def Obligations.CombineJoinsTheFirstWords : Prop :=
  (∀ n : Byte, EncodedAs (.combine n) (0x34000000#32 ||| n.setWidth 32)) ∧
    (∀ v, fieldOp v = 0x34#8 → fieldFa v ≠ 0 ∨ fieldFb v ≠ 0 → Illegal v) ∧
    ∀ s : State,
      (∀ n, s.mode = .unconfigured →
        exec (.combine n) s = .next { s with responses := s.responses ++ [⟨.notConfigured, 0#64⟩] }) ∧
      (∀ n, s.mode = .failed →
        exec (.combine n) s = .next { s with responses := s.responses ++ [⟨.configInvalid, 0#64⟩] }) ∧
      (∀ n, s.mode = .ready → n = 0#8 ∨ 4 < n.toNat →
        exec (.combine n) s = .next { s with responses := s.responses ++ [⟨.countRange, 4#64⟩] }) ∧
      (s.mode = .ready →
        exec (.combine 1) s = .next { s with responses := s.responses ++ [⟨.ok, s.w[0].setWidth 64⟩] } ∧
        exec (.combine 2) s = .next { s with
          responses := s.responses ++ [⟨.ok, (s.w[0] ++ s.w[1]).setWidth 64⟩] } ∧
        exec (.combine 3) s = .next { s with
          responses := s.responses ++ [⟨.ok, (s.w[0] ++ s.w[1] ++ s.w[2]).setWidth 64⟩] } ∧
        exec (.combine 4) s = .next { s with
          responses := s.responses ++ [⟨.ok, (s.w[0] ++ s.w[1] ++ s.w[2] ++ s.w[3]).setWidth 64⟩] })

/-- R57, first half: the three bytes of a PACK at LEN = a are read back at a, a+1 and a+2. -/
def Obligations.PackedBytesReadBack : Prop :=
  ∀ (s t : State) (src : WordReg), s.Inv → s.mode = .ready → s.len.toNat + 3 ≤ BUF_BYTES →
    exec (.pack src) s = .next t →
    exec (.ldb s.len) t = .next { t with
      responses := t.responses ++ [⟨.ok, (s.w[src].extractLsb' 8 8).setWidth 64⟩] } ∧
    exec (.ldb (s.len + 1)) t = .next { t with
      responses := t.responses ++ [⟨.ok, (s.w[src].extractLsb' 0 8).setWidth 64⟩] } ∧
    exec (.ldb (s.len + 2)) t = .next { t with
      responses := t.responses ++
        [⟨.ok, (checksum s.cfg [s.w[src].extractLsb' 8 8, s.w[src].extractLsb' 0 8]).setWidth 64⟩] }

/-- R57, second half: two bytes and their checksum, pushed from LEN = 0, unframe to the big-endian word. -/
def Obligations.PushedFrameUnframesToItsWord : Prop :=
  ∀ (s : State) (x y : Byte), s.Inv → s.mode = .ready → s.len = 0 →
    ∃ t, core.run 4 (s.withProgram
        [.pushb x, .pushb y, .pushb (checksum s.cfg [x, y]), .unframe 1]) = .next t ∧
      t.w[0] = x ++ y ∧ t.w[1] = s.w[1] ∧ t.w[2] = s.w[2] ∧ t.w[3] = s.w[3] ∧
      t.responses = s.responses ++ [⟨.ok, 1#64⟩, ⟨.ok, 2#64⟩, ⟨.ok, 3#64⟩, ⟨.ok, 1#64⟩]

/-- R165 on the machine: the first k word registers, packed into an empty buffer in order and unframed again, are what
they were, whatever the checked configuration is. -/
def Obligations.PackThenUnframeRestoresTheWords : Prop :=
  ∀ (s : State) (k : Nat), s.Inv → s.mode = .ready → k ≤ NW →
    ∃ t, core.run (k + 2) (s.withProgram
        (.clrb :: ((List.finRange NW).take k).map .pack ++ [.unframe (BitVec.ofNat 8 k)])) = .next t ∧
      t.w = s.w ∧ t.len.toNat = 3 * k ∧ t.cfg = s.cfg ∧ t.mode = .ready ∧
      t.responses.getLast? = some ⟨.ok, BitVec.ofNat 64 k⟩

/-! ## Rules over all commands (spec/10_state.md, spec/20_memory.md, spec/60_exceptions.md) -/

/-- R194: the gate. A gated command is NotConfigured or ConfigInvalid by MODE alone, with nothing changed, and in MODE =
READY it is neither; a command that is not gated is never either. -/
def Obligations.GateRefusesTheCodecUnlessReady : Prop :=
  ∀ (i : Instr) (s : State),
    (i.gated = true → s.mode = .unconfigured →
      exec i s = .next { s with responses := s.responses ++ [⟨.notConfigured, 0#64⟩] }) ∧
    (i.gated = true → s.mode = .failed →
      exec i s = .next { s with responses := s.responses ++ [⟨.configInvalid, 0#64⟩] }) ∧
    (i.gated = false ∨ s.mode = .ready → ∀ t r, exec i s = .next t → t.responses = s.responses ++ [r] →
      r.status ≠ .notConfigured ∧ r.status ≠ .configInvalid)

/-- R196, R197: whatever the word, an error response leaves the whole state of the unit as it was, but for SelfTestFail,
which only SELFTEST answers and which has written TABLE and set MODE to FAILED and nothing else. -/
def Obligations.ErrorResponsesChangeNothing : Prop :=
  ∀ (s t : State) (v : Command) (rest : List HostAction) (r : Response), s.port = .command v :: rest →
    step s = .next t → t.responses = s.responses ++ [r] →
    (r.status ≠ .ok → r.status ≠ .selfTestFail → t = { s with port := rest, responses := s.responses ++ [r] }) ∧
    (r.status = .selfTestFail → decode v = .ok .selftest ∧
      (∀ j : Fin 256, t.table[j] = crcByte s.cfg.poly 0x00#8 (BitVec.ofFin j)) ∧
      t = { s with port := rest, mode := .failed, table := t.table, responses := s.responses ++ [r] })

/-- R190, R195: a legal command that completes is answered once, with OK or one of the errors R195 lists for it. -/
def Obligations.EachCommandAnswersOnlyItsStatuses : Prop :=
  ∀ (i : Instr) (s t : State), i.wellFormed = true → exec i s = .next t →
    ∃ r, t.responses = s.responses ++ [r] ∧ t.port = s.port ∧ (r.status = .ok ∨ r.status ∈ i.errors)

/-- R190: the code of each status; no two are equal and none is above 0x0A. -/
def Obligations.StatusCodesAreTheStatedOnes : Prop :=
  ([Status.ok, .illegalCommand, .notConfigured, .configInvalid, .configLocked, .selfTestFail, .addressRange,
      .bufferOverflow, .countRange, .lengthMismatch, .checksumMismatch].map Status.code =
    [0x00, 0x01, 0x02, 0x03, 0x04, 0x05, 0x06, 0x07, 0x08, 0x09, 0x0A]) ∧
    ∀ a b : Status, (a.code = b.code → a = b) ∧ a.code.toNat ≤ 0x0A

/-- R24: a word register changes only by RESET, by LDW naming it, or by UNFRAME with a count above its number. -/
def Obligations.WordRegistersChangeOnlyBy : Prop :=
  ∀ (i : Instr) (s t : State) (r : WordReg), exec i s = .next t → t.w[r] ≠ s.w[r] →
    (i = .reset ∧ t.w[r] = 0) ∨ i = .ldw r t.w[r] ∨ ∃ count, i = .unframe count ∧ r.val < count.toNat

/-- R24, the reads: a command that is not RDW, PACK or COMBINE is answered alike, and does the same to all other state,
whatever the word registers hold; and each register is written with the same word, or not written at all. -/
def Obligations.WordRegistersAreReadOnlyBy : Prop :=
  ∀ (i : Instr) (s t : State) (v : Vector Word NW), i.readsWords = false → exec i s = .next t →
    ∃ u : State, exec i { s with w := v } = .next u ∧ u = { t with w := u.w } ∧
      ∀ r : WordReg, u.w[r] = t.w[r] ∨ (t.w[r] = s.w[r] ∧ u.w[r] = v[r])

/-- R28, R52: a byte of BUF changes only by RESET, by PUSHB at LEN, by STB of a valid byte, or by PACK in its three
bytes. -/
def Obligations.BufferBytesChangeOnlyBy : Prop :=
  ∀ (i : Instr) (s t : State) (a : Nat), Memory.wf s.buf → exec i s = .next t → t.buf.read a ≠ s.buf.read a →
    i = .reset ∨ (∃ b, i = .pushb b ∧ a = s.len.toNat ∧ t.buf.read a = some b) ∨
      (∃ addr b, i = .stb addr b ∧ a = addr.toNat ∧ a < s.len.toNat ∧ t.buf.read a = some b) ∨
      ∃ src, i = .pack src ∧ s.len.toNat ≤ a ∧ a < s.len.toNat + 3

/-- R28: LEN changes only by RESET and CLRB (to 0), PUSHB (by 1) and PACK (by 3). -/
def Obligations.LenChangesOnlyBy : Prop :=
  ∀ (i : Instr) (s t : State), exec i s = .next t → t.len ≠ s.len →
    ((i = .reset ∨ i = .clrb) ∧ t.len = 0) ∨ (∃ b, i = .pushb b ∧ t.len.toNat = s.len.toNat + 1) ∨
      ∃ src, i = .pack src ∧ t.len.toNat = s.len.toNat + 3

/-- R59: a command that reads changes nothing, and given again answers the same. -/
def Obligations.ReadsAreIdempotent : Prop :=
  ∀ (i : Instr) (s t : State), i.readsOnly = true → exec i s = .next t →
    ∃ r, t = { s with responses := s.responses ++ [r] } ∧
      exec i t = .next { s with responses := s.responses ++ [r, r] }

/-- R173: UNFRAME given again on the buffer it has just read answers the same and writes the same words. -/
def Obligations.UnframeIsIdempotent : Prop :=
  ∀ (count : Byte) (s t : State), exec (.unframe count) s = .next t →
    ∃ r, t.responses = s.responses ++ [r] ∧
      exec (.unframe count) t = .next { t with responses := s.responses ++ [r, r] }

/-- R53, R30: what the host cannot see has no effect. Two states that differ only in TABLE and in bytes of BUF at LEN and
above go on alike: both stop, or both reach next states that again differ only there. -/
def Obligations.HiddenStateHasNoEffect : Prop :=
  ∀ s t : State, s.Indistinguishable t →
    (∃ s' t', step s = .next s' ∧ step t = .next t' ∧ s'.Indistinguishable t') ∨
      ∃ f, step s = .fault f ∧ step t = .fault f

/-- R53, R30, R231 over whole runs: such states give the same list of responses after any number of steps. -/
def Obligations.HiddenStateIsNeverObserved : Prop :=
  ∀ (k : Nat) (s t s' : State), s.Indistinguishable t → core.run k s = .next s' →
    ∃ t', core.run k t = .next t' ∧ t'.responses = s'.responses
end

