-- ==== Sys2Proof/Laws/Decode.lean ====
section
/-! SUPPORT. The fields of a command word, and once for each piece of the decoder all that it can answer. -/

namespace Sys2Proof

/-! ## A word is its four fields -/

theorem commandWord_getLsbD (op fa fb fc : Byte) (i : Nat) :
    (commandWord op fa fb fc).getLsbD i =
      if i < 8 then fc.getLsbD i else if i < 16 then fb.getLsbD (i - 8)
      else if i < 24 then fa.getLsbD (i - 16) else op.getLsbD (i - 24) := by
  simp only [commandWord, BitVec.getLsbD_append]
  split
  · rfl
  · split
    · rw [if_pos (by omega)]
    · split
      · rw [if_neg (by omega), if_pos (by omega)]; congr 1
      · rw [if_neg (by omega), if_neg (by omega)]; congr 1

@[simp] theorem fieldOp_commandWord (op fa fb fc : Byte) : fieldOp (commandWord op fa fb fc) = op := by
  apply BitVec.eq_of_getLsbD_eq; intro i hi
  simp only [fieldOp, BitVec.getLsbD_extractLsb', commandWord_getLsbD, hi]
  rw [if_neg (by omega), if_neg (by omega), if_neg (by omega)]; simp

@[simp] theorem fieldFa_commandWord (op fa fb fc : Byte) : fieldFa (commandWord op fa fb fc) = fa := by
  apply BitVec.eq_of_getLsbD_eq; intro i hi
  simp only [fieldFa, BitVec.getLsbD_extractLsb', commandWord_getLsbD, hi]
  rw [if_neg (by omega), if_neg (by omega), if_pos (by omega)]; simp

@[simp] theorem fieldFb_commandWord (op fa fb fc : Byte) : fieldFb (commandWord op fa fb fc) = fb := by
  apply BitVec.eq_of_getLsbD_eq; intro i hi
  simp only [fieldFb, BitVec.getLsbD_extractLsb', commandWord_getLsbD, hi]
  rw [if_neg (by omega), if_pos (by omega)]; simp

@[simp] theorem fieldFc_commandWord (op fa fb fc : Byte) : fieldFc (commandWord op fa fb fc) = fc := by
  apply BitVec.eq_of_getLsbD_eq; intro i hi
  simp only [fieldFc, BitVec.getLsbD_extractLsb', commandWord_getLsbD, hi]
  rw [if_pos (by omega)]; simp

theorem commandWord_fields (v : Command) : commandWord (fieldOp v) (fieldFa v) (fieldFb v) (fieldFc v) = v := by
  apply BitVec.eq_of_getLsbD_eq; intro i hi
  rw [commandWord_getLsbD]
  simp only [fieldOp, fieldFa, fieldFb, fieldFc, BitVec.getLsbD_extractLsb']
  split
  · simp [*]
  · split
    · have : 8 + (i - 8) = i := by omega
      simp [this]; omega
    · split
      · have : 16 + (i - 16) = i := by omega
        simp [this]; omega
      · have : 24 + (i - 24) = i := by omega
        simp [this]; omega

/-- Two words with the same four fields are equal. -/
theorem eq_of_fields {v x : Command} (h1 : fieldOp v = fieldOp x) (h2 : fieldFa v = fieldFa x)
    (h3 : fieldFb v = fieldFb x) (h4 : fieldFc v = fieldFc x) : v = x := by
  rw [← commandWord_fields v, ← commandWord_fields x, h1, h2, h3, h4]

/-- The word of four fields as the spec writes encodings: shifted fields joined by or. -/
theorem commandWord_eq_or (op fa fb fc : Byte) :
    commandWord op fa fb fc =
      (op.setWidth 32 <<< 24) ||| (fa.setWidth 32 <<< 16) ||| (fb.setWidth 32 <<< 8) ||| fc.setWidth 32 := by
  apply BitVec.eq_of_getLsbD_eq; intro i hi
  have far : ∀ (b : Byte) k, 8 ≤ k → b.getLsbD k = false := fun b k hk => BitVec.getLsbD_of_ge b k hk
  rw [commandWord_getLsbD]
  simp only [BitVec.getLsbD_or, BitVec.getLsbD_shiftLeft, BitVec.getLsbD_setWidth, hi, decide_true, Bool.true_and]
  split
  · simp [*, show i < 16 by omega, show i < 24 by omega]
  · split
    · simp [*, show i < 24 by omega, far fc i (by omega), show i - 8 < 32 by omega]
    · split
      · simp [*, far fc i (by omega), far fb (i - 8) (by omega), show i - 16 < 32 by omega]
      · simp [*, far fc i (by omega), far fb (i - 8) (by omega), far fa (i - 16) (by omega), show i - 24 < 32 by omega]

/-- The two bytes of a Word, joined, are the Word. -/
@[simp] theorem highByte_append_lowByte (v : Word) : highByte v ++ lowByte v = v := by
  apply BitVec.eq_of_getLsbD_eq; intro i hi
  simp only [highByte, lowByte, BitVec.getLsbD_append, BitVec.getLsbD_extractLsb']
  split
  · simp [*]
  · have : 8 + (i - 8) = i := by omega
    simp [this]; omega

@[simp] theorem highByte_append (hi lo : Byte) : highByte (hi ++ lo) = hi := by
  apply BitVec.eq_of_getLsbD_eq; intro i h
  have h1 := @BitVec.getLsbD_append 8 8 (8 + i) hi lo
  simp only [highByte, BitVec.getLsbD_extractLsb', h, decide_true, Bool.true_and]
  exact h1.trans (by rw [if_neg (by omega)]; congr 1; omega)

@[simp] theorem lowByte_append (hi lo : Byte) : lowByte (hi ++ lo) = lo := by
  apply BitVec.eq_of_getLsbD_eq; intro i h
  have h1 := @BitVec.getLsbD_append 8 8 (0 + i) hi lo
  simp only [lowByte, BitVec.getLsbD_extractLsb', h, decide_true, Bool.true_and]
  exact h1.trans (by rw [if_pos (by omega)]; congr 1; omega)

/-! ## What the pieces of the decoder can answer -/

/-- A must-be-zero field lets the rest through exactly when it is zero. -/
theorem needZero_eq_ok {n : Nat} {f : BitVec n} {k : Except DecodeError Instr} {i : Instr} :
    needZero f k = .ok i ↔ f = 0#n ∧ k = .ok i := by
  unfold needZero; split
  · exact ⟨fun h => ⟨by assumption, h⟩, fun h => h.2⟩
  · exact ⟨fun h => (nomatch h), fun h => absurd h.1 (by assumption)⟩

theorem needZero_eq_error {n : Nat} {f : BitVec n} {k : Except DecodeError Instr} {e : DecodeError} :
    needZero f k = .error e ↔ (f ≠ 0#n ∧ e = .nonzeroMustBeZero) ∨ (f = 0#n ∧ k = .error e) := by
  unfold needZero; split
  · rename_i h
    exact ⟨fun h1 => .inr ⟨h, h1⟩, fun h1 => h1.elim (fun h2 => absurd h h2.1) (fun h2 => h2.2)⟩
  · rename_i h
    refine ⟨fun h1 => .inl ⟨h, by cases h1; rfl⟩, fun h1 => h1.elim (fun h2 => by rw [h2.2]) (fun h2 => absurd h2.1 h)⟩

@[simp] theorem needZero_zero {n : Nat} (k : Except DecodeError Instr) : needZero 0#n k = k :=
  if_pos rfl

theorem csrOfNumber_csrNumber (csr : Csr) : csrOfNumber (csrNumber csr) = .ok csr := by
  cases csr <;> rfl

/-- A CSR number that decodes is the number of its register. -/
theorem csrNumber_of_eq_ok {n : Byte} {csr : Csr} (h : csrOfNumber n = .ok csr) : n = csrNumber csr := by
  unfold csrOfNumber at h
  split at h <;> cases h <;> rfl

/-- A CSR number decodes exactly when it is at most 4 (R79 item 3). -/
theorem csrOfNumber_isOk (n : Byte) : (∃ csr, csrOfNumber n = .ok csr) ↔ n.toNat ≤ 4 := by
  constructor
  · rintro ⟨csr, h⟩
    rw [csrNumber_of_eq_ok h]; cases csr <;> decide
  · intro h
    have : n = 0#8 ∨ n = 1#8 ∨ n = 2#8 ∨ n = 3#8 ∨ n = 4#8 := by bv_omega
    rcases this with rfl | rfl | rfl | rfl | rfl
    exacts [⟨.poly, rfl⟩, ⟨.init, rfl⟩, ⟨.xorOut, rfl⟩, ⟨.status, rfl⟩, ⟨.len, rfl⟩]

theorem csrOfNumber_error {n : Byte} (h : 4 < n.toNat) : csrOfNumber n = .error .noSuchCsr := by
  unfold csrOfNumber
  split <;> first | rfl | (exfalso; revert h; decide)

/-- The writable registers are the three numbers up to 2 (R79 item 4). -/
theorem csr_writable_iff (csr : Csr) : csr.writable = true ↔ (csrNumber csr).toNat ≤ 2 := by
  cases csr <;> decide

theorem wordRegOfNumber_wordRegNumber (r : WordReg) : wordRegOfNumber (wordRegNumber r) = .ok r := by
  revert r; decide

theorem wordRegNumber_of_eq_ok {n : Byte} {r : WordReg} (h : wordRegOfNumber n = .ok r) : n = wordRegNumber r := by
  unfold wordRegOfNumber at h
  split at h
  · cases h; simp [wordRegNumber]
  · cases h

theorem wordRegOfNumber_isOk (n : Byte) : (∃ r, wordRegOfNumber n = .ok r) ↔ n.toNat < NW := by
  unfold wordRegOfNumber; split <;> simp_all

theorem wordRegOfNumber_error {n : Byte} (h : NW ≤ n.toNat) : wordRegOfNumber n = .error .noSuchWordReg := by
  unfold wordRegOfNumber; rw [dif_neg (by omega)]

/-! ## The decoder, one opcode at a time (R78) -/

theorem decode_reset {v : Command} (h : fieldOp v = 0x01#8) :
    decode v = needZero (fieldFa v) (needZero (fieldFb v) (needZero (fieldFc v) (.ok .reset))) := by
  unfold decode; simp only [h]

theorem decode_csrr {v : Command} (h : fieldOp v = 0x02#8) :
    decode v = needZero (fieldFb v) (needZero (fieldFc v) ((csrOfNumber (fieldFa v)).map .csrr)) := by
  unfold decode; simp only [h]

theorem decode_csrw {v : Command} (h : fieldOp v = 0x03#8) :
    decode v = needZero (fieldFb v) ((csrOfNumber (fieldFa v)).bind (csrwOf · (fieldFc v))) := by
  unfold decode; simp only [h]

theorem decode_selftest {v : Command} (h : fieldOp v = 0x04#8) :
    decode v = needZero (fieldFa v) (needZero (fieldFb v) (needZero (fieldFc v) (.ok .selftest))) := by
  unfold decode; simp only [h]

theorem decode_clrb {v : Command} (h : fieldOp v = 0x10#8) :
    decode v = needZero (fieldFa v) (needZero (fieldFb v) (needZero (fieldFc v) (.ok .clrb))) := by
  unfold decode; simp only [h]

theorem decode_pushb {v : Command} (h : fieldOp v = 0x11#8) :
    decode v = needZero (fieldFa v) (needZero (fieldFb v) (.ok (.pushb (fieldFc v)))) := by
  unfold decode; simp only [h]

theorem decode_stb {v : Command} (h : fieldOp v = 0x12#8) :
    decode v = needZero (fieldFa v) (.ok (.stb (fieldFb v) (fieldFc v))) := by
  unfold decode; simp only [h]

theorem decode_ldb {v : Command} (h : fieldOp v = 0x13#8) :
    decode v = needZero (fieldFa v) (needZero (fieldFb v) (.ok (.ldb (fieldFc v)))) := by
  unfold decode; simp only [h]

theorem decode_crc {v : Command} (h : fieldOp v = 0x20#8) :
    decode v = needZero (fieldFa v) (.ok (.crc (fieldFb v) (fieldFc v))) := by
  unfold decode; simp only [h]

theorem decode_crcv {v : Command} (h : fieldOp v = 0x21#8) :
    decode v = needZero (fieldFa v) (.ok (.crcv (fieldFb v) (fieldFc v))) := by
  unfold decode; simp only [h]

theorem decode_ldw {v : Command} (h : fieldOp v = 0x30#8) :
    decode v = (wordRegOfNumber (fieldFa v)).map (.ldw · ((fieldFb v) ++ (fieldFc v))) := by
  unfold decode; simp only [h]

theorem decode_rdw {v : Command} (h : fieldOp v = 0x31#8) :
    decode v = needZero (fieldFb v) (needZero (fieldFc v) ((wordRegOfNumber (fieldFa v)).map .rdw)) := by
  unfold decode; simp only [h]

theorem decode_pack {v : Command} (h : fieldOp v = 0x32#8) :
    decode v = needZero (fieldFb v) (needZero (fieldFc v) ((wordRegOfNumber (fieldFa v)).map .pack)) := by
  unfold decode; simp only [h]

theorem decode_unframe {v : Command} (h : fieldOp v = 0x33#8) :
    decode v = needZero (fieldFa v) (needZero (fieldFb v) (.ok (.unframe (fieldFc v)))) := by
  unfold decode; simp only [h]

theorem decode_combine {v : Command} (h : fieldOp v = 0x34#8) :
    decode v = needZero (fieldFa v) (needZero (fieldFb v) (.ok (.combine (fieldFc v)))) := by
  unfold decode; simp only [h]

/-- The fifteen assigned opcodes (R78). -/
theorem decode_unassigned {v : Command}
    (h : fieldOp v ∉ [0x01#8, 0x02#8, 0x03#8, 0x04#8, 0x10#8, 0x11#8, 0x12#8, 0x13#8, 0x20#8, 0x21#8, 0x30#8, 0x31#8,
      0x32#8, 0x33#8, 0x34#8]) : decode v = .error .unassignedOpcode := by
  unfold decode
  split
  case h_16 => rfl
  all_goals rename_i hop; rw [hop] at h; exact absurd (by decide) h

/-! ## The rows of R86, field by field -/

theorem fieldOp_and (v x : Command) : fieldOp (v &&& x) = fieldOp v &&& fieldOp x := by
  apply BitVec.eq_of_getLsbD_eq; intro i hi; simp [fieldOp, hi]

theorem fieldFa_and (v x : Command) : fieldFa (v &&& x) = fieldFa v &&& fieldFa x := by
  apply BitVec.eq_of_getLsbD_eq; intro i hi; simp [fieldFa, hi]

theorem fieldFb_and (v x : Command) : fieldFb (v &&& x) = fieldFb v &&& fieldFb x := by
  apply BitVec.eq_of_getLsbD_eq; intro i hi; simp [fieldFb, hi]

theorem fieldFc_and (v x : Command) : fieldFc (v &&& x) = fieldFc v &&& fieldFc x := by
  apply BitVec.eq_of_getLsbD_eq; intro i hi; simp [fieldFc, hi]

/-- A word selects a row exactly when each of its fields does. -/
theorem OpcodeRow.selects_iff (r : OpcodeRow) (v : Command) :
    r.selects v = true ↔
      fieldOp v &&& fieldOp r.mask = fieldOp r.pattern ∧ fieldFa v &&& fieldFa r.mask = fieldFa r.pattern ∧
        fieldFb v &&& fieldFb r.mask = fieldFb r.pattern ∧ fieldFc v &&& fieldFc r.mask = fieldFc r.pattern := by
  rw [OpcodeRow.selects, beq_iff_eq, ← fieldOp_and, ← fieldFa_and, ← fieldFb_and, ← fieldFc_and]
  exact ⟨fun h => by rw [h]; exact ⟨rfl, rfl, rfl, rfl⟩, fun h => eq_of_fields h.1 h.2.1 h.2.2.1 h.2.2.2⟩

/-- A row is selected only by words with its opcode: every row of R86 fixes `op`. -/
theorem fieldOp_of_selects {r : OpcodeRow} (hr : r ∈ opcodeTable) {v : Command} (h : r.selects v = true) :
    fieldOp v = fieldOp r.pattern := by
  have hm : ∀ r ∈ opcodeTable, fieldOp r.mask = 0xFF#8 := by decide
  have h1 := ((OpcodeRow.selects_iff r v).1 h).1
  rw [hm r hr] at h1
  rw [← h1]
  exact (BitVec.and_allOnes (x := fieldOp v)).symm

end Sys2Proof
end

