-- ==== Sys2Proof/Laws/Functions.lean ====
section
/-! SUPPORT. Small lemmas of the pure functions: the byte step and its table, `unframe` group by group, joined words, the
word registers UNFRAME writes, and MODE's gate and lock. -/

namespace Sys2Proof.Machine

/-! ## Checksum -/

/-- A byte step depends on the accumulator and the byte through their exclusive or alone (R142). -/
theorem crcByte_eq (poly c b : Byte) : crcByte poly c b = crcBitSteps poly 8 (c ^^^ b) := rfl

theorem crcByte_zero_left (poly b : Byte) : crcByte poly 0x00#8 b = crcBitSteps poly 8 b := by
  rw [crcByte, BitVec.zero_xor]

/-- An entry of the table (R142). -/
theorem crcTable_getElem (poly : Byte) (i : Fin 256) :
    (crcTable poly)[i] = crcByte poly 0x00#8 (BitVec.ofFin i) := by
  simp [crcTable]

theorem checksum_eq (cfg : ChecksumConfig) (bytes : List Byte) :
    checksum cfg bytes = crcRaw cfg.poly cfg.init bytes ^^^ cfg.xorOut := rfl

/-! ## unframe -/

theorem packWord_length (cfg : ChecksumConfig) (v : Word) : (packWord cfg v).length = 3 := rfl

@[simp] theorem unframeGroups_zero (cfg : ChecksumConfig) (i : Nat) (bytes : List Byte) :
    unframeGroups cfg i bytes 0 = .ok [] := by
  unfold unframeGroups; rfl

/-- One group: its word and the rest, the rest's error, or its own mismatch. -/
theorem unframeGroups_succ (cfg : ChecksumConfig) (i : Nat) (hi lo actual : Byte) (rest : List Byte) (n : Nat) :
    unframeGroups cfg i (hi :: lo :: actual :: rest) (n + 1) =
      if checksum cfg [hi, lo] = actual then (unframeGroups cfg (i + 1) rest n).map ((hi ++ lo) :: ·)
      else .error (.checksumMismatch i (checksum cfg [hi, lo]) actual) := by
  rw [unframeGroups]
  split
  · cases unframeGroups cfg (i + 1) rest n <;> rfl
  · rfl

/-- `unframe` tests the length first (R162). -/
theorem unframe_of_length_ne {cfg : ChecksumConfig} {bytes : List Byte} {count : Nat}
    (h : bytes.length ≠ 3 * count) : unframe cfg bytes count = .error (.lengthMismatch bytes.length count) :=
  if_neg h

theorem unframe_of_length_eq {cfg : ChecksumConfig} {bytes : List Byte} {count : Nat}
    (h : bytes.length = 3 * count) : unframe cfg bytes count = unframeGroups cfg 0 bytes count := if_pos h

/-- A buffer of 3 * count bytes gives count words or a checksum mismatch, never a length mismatch. -/
theorem unframeGroups_cases (cfg : ChecksumConfig) (i : Nat) {bytes : List Byte} {count : Nat}
    (h : bytes.length = 3 * count) :
    (∃ words, unframeGroups cfg i bytes count = .ok words ∧ words.length = count) ∨
      ∃ j e a, unframeGroups cfg i bytes count = .error (.checksumMismatch j e a) ∧ i ≤ j ∧ j < i + count := by
  induction count generalizing i bytes with
  | zero => exact .inl ⟨[], unframeGroups_zero cfg i bytes, rfl⟩
  | succ n ih =>
    match bytes, h with
    | hi :: lo :: actual :: rest, h =>
      rw [unframeGroups_succ]
      split
      · rcases ih (i + 1) (bytes := rest) (by simp at h; omega) with ⟨words, h1, h2⟩ | ⟨j, e, a, h1, h2, h3⟩
        · exact .inl ⟨(hi ++ lo) :: words, by rw [h1]; rfl, by simp [h2]⟩
        · exact .inr ⟨j, e, a, by rw [h1]; rfl, by omega, by omega⟩
      · exact .inr ⟨i, _, _, rfl, by omega, by omega⟩
    | [], h => simp at h
    | [_], h => simp at h; omega
    | [_, _], h => simp at h; omega

/-! ## The registers UNFRAME writes -/

/-- After writing `words` from register `i` on, a register in that range holds its word, every other one what it held. -/
theorem writeWords_getElem (v : Vector Word NW) (i : Nat) (words : List Word) (k : Nat) (hk : k < NW) :
    (writeWords v i words)[k] =
      if h : i ≤ k ∧ k < i + words.length then words[k - i]'(by omega) else v[k] := by
  induction words generalizing v i with
  | nil => rw [writeWords, dif_neg]; simp
  | cons x xs ih =>
    rw [writeWords, ih]
    by_cases h1 : i + 1 ≤ k ∧ k < i + 1 + xs.length
    · rw [dif_pos h1, dif_pos (by simp; omega)]
      obtain ⟨j, rfl⟩ : ∃ j, k = i + 1 + j := ⟨k - (i + 1), by omega⟩
      have h4 : i + 1 + j - i = j + 1 := by omega
      have h5 : i + 1 + j - (i + 1) = j := by omega
      simp only [h4, h5, List.getElem_cons_succ]
    · rw [dif_neg h1, Vector.getElem_setIfInBounds]
      by_cases h2 : i = k
      · subst h2; simp
      · rw [if_neg h2, dif_neg (by simp; omega)]

theorem firstWords_length (s : State) {n : Nat} (h : n ≤ NW) : (s.firstWords n).length = n := by
  simp [State.firstWords]; omega

/-- `combine_words` has a value exactly for 1 to 4 words (R164). -/
theorem combineWords_of_length {words : List Word} (h1 : 1 ≤ words.length) (h2 : words.length ≤ 4) :
    combineWords words = some (joinWords words) := if_pos ⟨h1, h2⟩

/-! ## MODE -/

theorem Mode.gate_eq_none {m : Mode} : m.gate = none ↔ m = .ready := by cases m <;> simp [Mode.gate]

theorem Mode.locked_eq_true {m : Mode} : m.locked = true ↔ m ≠ .unconfigured := by cases m <;> simp [Mode.locked]

theorem Mode.locked_eq_false {m : Mode} : m.locked = false ↔ m = .unconfigured := by cases m <;> simp [Mode.locked]

/-- A gate that refuses says which of the two (R194). -/
theorem Mode.gate_eq_some {m : Mode} {st : Status} :
    m.gate = some st ↔ (m = .unconfigured ∧ st = .notConfigured) ∨ (m = .failed ∧ st = .configInvalid) := by
  cases m <;> simp [Mode.gate, eq_comm]

end Sys2Proof.Machine
end

