-- ==== Sys2Proof/Laws/Memory.lean ====
section
/-! SUPPORT. The laws of the byte buffer: a read after a write, a span read or written byte by byte, and that every
operation keeps the canonical form. -/

namespace Sys2Proof.Machine

/-! ## One byte -/

theorem Memory.lookup_insert (m : Memory) (a a' : Nat) (b : Byte) (h : m.Pairwise (fun c d => c.1 < d.1)) :
    Memory.lookup (Memory.insert m a b) a' = if a' = a then b else Memory.lookup m a' := by
  have low : ∀ (l : Memory) (k : Nat), (∀ c ∈ l, k < c.1) → ∀ x, x ≤ k → Memory.lookup l x = unlistedByte := by
    intro l
    induction l with
    | nil => intros; rfl
    | cons c l ih =>
      intro k hk x hx
      have h1 := hk c (by simp)
      obtain ⟨k', v⟩ := c
      simp only at h1
      rw [Memory.lookup, if_neg (by omega)]
      exact ih k (fun c hc => hk c (by simp [hc])) x hx
  induction m with
  | nil =>
    unfold Memory.insert
    by_cases hb : b = unlistedByte <;> by_cases ha : a' = a <;> simp [hb, ha, Memory.lookup, @eq_comm _ a a']
  | cons c m ih =>
    obtain ⟨k, v⟩ := c
    obtain ⟨hk, hm⟩ := List.pairwise_cons.1 h
    simp only at hk
    unfold Memory.insert
    by_cases h1 : k < a
    · rw [if_pos h1]
      by_cases h2 : k = a'
      · subst h2
        simp [Memory.lookup]; intro; omega
      · rw [Memory.lookup, if_neg h2, ih hm, Memory.lookup, if_neg h2]
    · rw [if_neg h1]
      by_cases h2 : k = a
      · subst h2
        rw [if_pos rfl]
        by_cases hb : b = unlistedByte
        · rw [if_pos hb]
          by_cases h3 : a' = k
          · subst h3; rw [if_pos rfl, hb]; exact low m a' hk a' (le_refl _)
          · rw [if_neg h3, Memory.lookup, if_neg (Ne.symm h3)]
        · rw [if_neg hb]
          by_cases h3 : a' = k
          · subst h3; simp [Memory.lookup]
          · simp [Memory.lookup, h3, Ne.symm h3]
      · rw [if_neg h2]
        have hlt : a < k := by omega
        by_cases hb : b = unlistedByte
        · rw [if_pos hb]
          by_cases h3 : a' = a
          · subst h3; rw [if_pos rfl, hb, Memory.lookup, if_neg (by omega)]
            exact low m k hk a' (by omega)
          · rw [if_neg h3]
        · rw [if_neg hb]
          by_cases h3 : a' = a
          · subst h3; simp [Memory.lookup]
          · rw [if_neg h3]; conv_lhs => rw [Memory.lookup]
            rw [if_neg (Ne.symm h3)]

/-- Whether a byte exists depends on its address alone. -/
theorem Memory.read_isSome (m : Memory) (a : Nat) : (Memory.read m a).isSome = decide (a < BUF_BYTES) := by
  unfold Memory.read; split <;> simp_all

theorem Memory.write_isSome (m : Memory) (a : Nat) (b : Byte) :
    (Memory.write m a b).isSome = decide (a < BUF_BYTES) := by
  unfold Memory.write; split <;> simp_all

theorem Memory.read_of_lt {a : Nat} (m : Memory) (h : a < BUF_BYTES) : Memory.read m a = some (Memory.lookup m a) :=
  if_pos h

theorem Memory.write_of_lt {a : Nat} (m : Memory) (b : Byte) (h : a < BUF_BYTES) :
    Memory.write m a b = some (Memory.insert m a b) := if_pos h

/-- All that a write can do: the address exists and the byte is inserted. -/
theorem Memory.write_eq_some {m m' : Memory} {a : Nat} {b : Byte} :
    Memory.write m a b = some m' ↔ a < BUF_BYTES ∧ m' = Memory.insert m a b := by
  unfold Memory.write; split <;> simp_all [eq_comm]

/-- The law of one byte: a read after a write gives the byte written at its address, and the old byte elsewhere. -/
theorem Memory.read_write {m m' : Memory} {a : Nat} {b : Byte} (h : m.Pairwise (fun c d => c.1 < d.1))
    (hw : Memory.write m a b = some m') (a' : Nat) :
    Memory.read m' a' = if a' = a then some b else Memory.read m a' := by
  obtain ⟨ha, rfl⟩ := Memory.write_eq_some.1 hw
  unfold Memory.read
  rw [Memory.lookup_insert m a a' b h]
  by_cases h1 : a' = a
  · subst h1; simp [ha]
  · simp [h1]

/-! ## The canonical form -/

theorem Memory.mem_insert {m : Memory} {a : Nat} {b : Byte} {c : Host.Cell} (h : c ∈ Memory.insert m a b) :
    c ∈ m ∨ (c = (a, b) ∧ b ≠ unlistedByte) := by
  induction m with
  | nil => unfold Memory.insert at h; split at h <;> simp_all
  | cons d m ih =>
    obtain ⟨k, v⟩ := d
    unfold Memory.insert at h
    split at h
    · rcases List.mem_cons.1 h with h | h
      · exact .inl (by simp [h])
      · rcases ih h with h | h
        · exact .inl (by simp [h])
        · exact .inr h
    · split at h
      · split at h
        · exact .inl (by simp [h])
        · rcases List.mem_cons.1 h with h | h
          · exact .inr ⟨h, by assumption⟩
          · exact .inl (by simp [h])
      · split at h
        · exact .inl h
        · rcases List.mem_cons.1 h with h | h
          · exact .inr ⟨h, by assumption⟩
          · exact .inl h

theorem Memory.insert_sorted {m : Memory} (a : Nat) (b : Byte) (h : m.Pairwise (fun c d => c.1 < d.1)) :
    (Memory.insert m a b).Pairwise (fun c d => c.1 < d.1) := by
  induction m with
  | nil => unfold Memory.insert; split <;> simp
  | cons d m ih =>
    obtain ⟨k, v⟩ := d
    obtain ⟨hk, hm⟩ := List.pairwise_cons.1 h
    simp only at hk
    unfold Memory.insert
    split
    · refine List.pairwise_cons.2 ⟨fun c hc => ?_, ih hm⟩
      rcases Memory.mem_insert hc with h1 | ⟨rfl, -⟩
      · exact hk c h1
      · assumption
    · split
      · split
        · exact hm
        · refine List.pairwise_cons.2 ⟨fun c hc => ?_, hm⟩
          have := hk c hc
          simp only; omega
      · split
        · exact h
        · refine List.pairwise_cons.2 ⟨fun c hc => ?_, h⟩
          rcases List.mem_cons.1 hc with rfl | hc
          · simp only; omega
          · have := hk c hc
            simp only; omega

/-- Writing a byte keeps the canonical form. -/
theorem Memory.write_wf {m m' : Memory} {a : Nat} {b : Byte} (h : Memory.wf m)
    (hw : Memory.write m a b = some m') : Memory.wf m' := by
  obtain ⟨ha, rfl⟩ := Memory.write_eq_some.1 hw
  refine ⟨Memory.insert_sorted a b h.1, fun c hc => ?_⟩
  rcases Memory.mem_insert hc with h1 | ⟨rfl, hb⟩
  · exact h.2 c h1
  · exact ⟨ha, hb⟩

theorem Memory.empty_wf : Memory.wf [] := by decide

/-! ## Spans -/

/-- All that reading a span can do: it gives exactly the bytes of its addresses, in order. -/
theorem Memory.readSpan_eq_some {m : Memory} {addr n : Nat} {bytes : List Byte} :
    Memory.readSpan m addr n = some bytes ↔
      bytes.length = n ∧ ∀ i (h : i < bytes.length), Memory.read m (addr + i) = some bytes[i] := by
  induction n generalizing addr bytes with
  | zero =>
    constructor
    · intro h
      cases h
      exact ⟨rfl, fun i hi => absurd hi (by simp)⟩
    · rintro ⟨h, -⟩
      rw [List.length_eq_zero_iff.1 h]; rfl
  | succ n ih =>
    unfold Memory.readSpan
    constructor
    · intro h
      split at h
      · cases h
      · rename_i b hb
        split at h
        · cases h
        · rename_i bs hbs
          cases h
          obtain ⟨h1, h2⟩ := ih.1 hbs
          refine ⟨by simp [h1], fun i hi => ?_⟩
          cases i with
          | zero => simpa using hb
          | succ i => simpa [Nat.add_assoc, Nat.add_comm 1] using h2 i (by simpa using hi)
    · rintro ⟨h1, h2⟩
      cases bytes with
      | nil => simp at h1
      | cons b bs =>
        have h0 := h2 0 (by simp)
        simp only [Nat.add_zero, List.getElem_cons_zero] at h0
        have hbs : Memory.readSpan m (addr + 1) n = some bs := by
          refine ih.2 ⟨by simpa using h1, fun i hi => ?_⟩
          have h3 := h2 (i + 1) (by simpa using hi)
          rw [List.getElem_cons_succ] at h3
          rw [← h3, Nat.add_assoc, Nat.add_comm 1]
        simp [h0, hbs]

/-- A span inside BUF can be read, and an empty one always. -/
theorem Memory.readSpan_isSome (m : Memory) {addr n : Nat} (h : n = 0 ∨ addr + n ≤ BUF_BYTES) :
    ∃ bytes, Memory.readSpan m addr n = some bytes := by
  induction n generalizing addr with
  | zero => exact ⟨[], rfl⟩
  | succ n ih =>
    have h1 : addr + (n + 1) ≤ BUF_BYTES := by omega
    obtain ⟨bs, hbs⟩ := ih (addr := addr + 1) (.inr (by omega))
    exact ⟨_, by rw [Memory.readSpan, Memory.read_of_lt m (by omega), hbs]⟩

/-- Two memories that agree on a span's addresses give the same span. -/
theorem Memory.readSpan_congr {m m' : Memory} {addr n : Nat}
    (h : ∀ a, addr ≤ a → a < addr + n → Memory.read m a = Memory.read m' a) :
    Memory.readSpan m addr n = Memory.readSpan m' addr n := by
  induction n generalizing addr with
  | zero => rfl
  | succ n ih =>
    unfold Memory.readSpan
    rw [h addr (by omega) (by omega), ih (addr := addr + 1) (fun a h1 h2 => h a (by omega) (by omega))]

/-- Writing a span inside BUF succeeds. -/
theorem Memory.writeSpan_isSome (m : Memory) {addr : Nat} {bytes : List Byte} (h : addr + bytes.length ≤ BUF_BYTES) :
    ∃ m', Memory.writeSpan m addr bytes = some m' := by
  induction bytes generalizing m addr with
  | nil => exact ⟨m, rfl⟩
  | cons b bs ih =>
    rw [List.length_cons] at h
    obtain ⟨m', hm'⟩ := ih (Memory.insert m addr b) (addr := addr + 1) (by omega)
    exact ⟨m', by rw [Memory.writeSpan, Memory.write_of_lt m b (by omega)]; exact hm'⟩

/-- The law of a span: after the write its addresses hold its bytes and every other address holds what it held. -/
theorem Memory.read_writeSpan {m m' : Memory} {addr : Nat} {bytes : List Byte} (h : Memory.wf m)
    (hw : Memory.writeSpan m addr bytes = some m') :
    Memory.wf m' ∧ ∀ a, Memory.read m' a =
      if h : addr ≤ a ∧ a < addr + bytes.length then some (bytes[a - addr]'(by omega)) else Memory.read m a := by
  induction bytes generalizing m addr with
  | nil =>
    cases hw
    refine ⟨h, fun a => ?_⟩
    rw [dif_neg]; simp
  | cons b bs ih =>
    unfold Memory.writeSpan at hw
    split at hw
    · cases hw
    · rename_i m1 hm1
      obtain ⟨h1, h2⟩ := ih (Memory.write_wf h hm1) hw
      refine ⟨h1, fun a => ?_⟩
      rw [h2 a]
      by_cases ha : addr + 1 ≤ a ∧ a < addr + 1 + bs.length
      · rw [dif_pos ha, dif_pos (by simp; omega)]
        obtain ⟨k, rfl⟩ : ∃ k, a = addr + 1 + k := ⟨a - (addr + 1), by omega⟩
        have h4 : addr + 1 + k - addr = k + 1 := by omega
        have h5 : addr + 1 + k - (addr + 1) = k := by omega
        simp only [h4, h5, List.getElem_cons_succ]
      · rw [dif_neg ha, Memory.read_write h.1 hm1]
        by_cases h3 : a = addr
        · subst h3; simp
        · rw [if_neg h3, dif_neg (by simp; omega)]

end Sys2Proof.Machine
end

