-- ==== Sys2Proof/Laws/State.lean ====
section
/-! SUPPORT. Beside State: one lemma per field per named update, true by rfl, so that no proof unfolds a record update. -/

namespace Sys2Proof.Machine

@[simp] theorem State.setCfg_cfg (s : State) (c : ChecksumConfig) : (s.setCfg c).cfg = c := rfl
@[simp] theorem State.setCfg_mode (s : State) (c : ChecksumConfig) : (s.setCfg c).mode = s.mode := rfl
@[simp] theorem State.setCfg_table (s : State) (c : ChecksumConfig) : (s.setCfg c).table = s.table := rfl
@[simp] theorem State.setCfg_buf (s : State) (c : ChecksumConfig) : (s.setCfg c).buf = s.buf := rfl
@[simp] theorem State.setCfg_len (s : State) (c : ChecksumConfig) : (s.setCfg c).len = s.len := rfl
@[simp] theorem State.setCfg_w (s : State) (c : ChecksumConfig) : (s.setCfg c).w = s.w := rfl
@[simp] theorem State.setCfg_port (s : State) (c : ChecksumConfig) : (s.setCfg c).port = s.port := rfl
@[simp] theorem State.setCfg_responses (s : State) (c : ChecksumConfig) : (s.setCfg c).responses = s.responses := rfl

@[simp] theorem State.setMode_cfg (s : State) (m : Mode) : (s.setMode m).cfg = s.cfg := rfl
@[simp] theorem State.setMode_mode (s : State) (m : Mode) : (s.setMode m).mode = m := rfl
@[simp] theorem State.setMode_table (s : State) (m : Mode) : (s.setMode m).table = s.table := rfl
@[simp] theorem State.setMode_buf (s : State) (m : Mode) : (s.setMode m).buf = s.buf := rfl
@[simp] theorem State.setMode_len (s : State) (m : Mode) : (s.setMode m).len = s.len := rfl
@[simp] theorem State.setMode_w (s : State) (m : Mode) : (s.setMode m).w = s.w := rfl
@[simp] theorem State.setMode_port (s : State) (m : Mode) : (s.setMode m).port = s.port := rfl
@[simp] theorem State.setMode_responses (s : State) (m : Mode) : (s.setMode m).responses = s.responses := rfl

@[simp] theorem State.setTable_cfg (s : State) (v : Vector Byte 256) : (s.setTable v).cfg = s.cfg := rfl
@[simp] theorem State.setTable_mode (s : State) (v : Vector Byte 256) : (s.setTable v).mode = s.mode := rfl
@[simp] theorem State.setTable_table (s : State) (v : Vector Byte 256) : (s.setTable v).table = v := rfl
@[simp] theorem State.setTable_buf (s : State) (v : Vector Byte 256) : (s.setTable v).buf = s.buf := rfl
@[simp] theorem State.setTable_len (s : State) (v : Vector Byte 256) : (s.setTable v).len = s.len := rfl
@[simp] theorem State.setTable_w (s : State) (v : Vector Byte 256) : (s.setTable v).w = s.w := rfl
@[simp] theorem State.setTable_port (s : State) (v : Vector Byte 256) : (s.setTable v).port = s.port := rfl
@[simp] theorem State.setTable_responses (s : State) (v : Vector Byte 256) : (s.setTable v).responses = s.responses := rfl

@[simp] theorem State.setBuf_cfg (s : State) (m : Memory) : (s.setBuf m).cfg = s.cfg := rfl
@[simp] theorem State.setBuf_mode (s : State) (m : Memory) : (s.setBuf m).mode = s.mode := rfl
@[simp] theorem State.setBuf_table (s : State) (m : Memory) : (s.setBuf m).table = s.table := rfl
@[simp] theorem State.setBuf_buf (s : State) (m : Memory) : (s.setBuf m).buf = m := rfl
@[simp] theorem State.setBuf_len (s : State) (m : Memory) : (s.setBuf m).len = s.len := rfl
@[simp] theorem State.setBuf_w (s : State) (m : Memory) : (s.setBuf m).w = s.w := rfl
@[simp] theorem State.setBuf_port (s : State) (m : Memory) : (s.setBuf m).port = s.port := rfl
@[simp] theorem State.setBuf_responses (s : State) (m : Memory) : (s.setBuf m).responses = s.responses := rfl

@[simp] theorem State.setLen_cfg (s : State) (n : Byte) : (s.setLen n).cfg = s.cfg := rfl
@[simp] theorem State.setLen_mode (s : State) (n : Byte) : (s.setLen n).mode = s.mode := rfl
@[simp] theorem State.setLen_table (s : State) (n : Byte) : (s.setLen n).table = s.table := rfl
@[simp] theorem State.setLen_buf (s : State) (n : Byte) : (s.setLen n).buf = s.buf := rfl
@[simp] theorem State.setLen_len (s : State) (n : Byte) : (s.setLen n).len = n := rfl
@[simp] theorem State.setLen_w (s : State) (n : Byte) : (s.setLen n).w = s.w := rfl
@[simp] theorem State.setLen_port (s : State) (n : Byte) : (s.setLen n).port = s.port := rfl
@[simp] theorem State.setLen_responses (s : State) (n : Byte) : (s.setLen n).responses = s.responses := rfl

@[simp] theorem State.setWords_cfg (s : State) (v : Vector Word NW) : (s.setWords v).cfg = s.cfg := rfl
@[simp] theorem State.setWords_mode (s : State) (v : Vector Word NW) : (s.setWords v).mode = s.mode := rfl
@[simp] theorem State.setWords_table (s : State) (v : Vector Word NW) : (s.setWords v).table = s.table := rfl
@[simp] theorem State.setWords_buf (s : State) (v : Vector Word NW) : (s.setWords v).buf = s.buf := rfl
@[simp] theorem State.setWords_len (s : State) (v : Vector Word NW) : (s.setWords v).len = s.len := rfl
@[simp] theorem State.setWords_w (s : State) (v : Vector Word NW) : (s.setWords v).w = v := rfl
@[simp] theorem State.setWords_port (s : State) (v : Vector Word NW) : (s.setWords v).port = s.port := rfl
@[simp] theorem State.setWords_responses (s : State) (v : Vector Word NW) : (s.setWords v).responses = s.responses := rfl

@[simp] theorem State.setPort_cfg (s : State) (p : List HostAction) : (s.setPort p).cfg = s.cfg := rfl
@[simp] theorem State.setPort_mode (s : State) (p : List HostAction) : (s.setPort p).mode = s.mode := rfl
@[simp] theorem State.setPort_table (s : State) (p : List HostAction) : (s.setPort p).table = s.table := rfl
@[simp] theorem State.setPort_buf (s : State) (p : List HostAction) : (s.setPort p).buf = s.buf := rfl
@[simp] theorem State.setPort_len (s : State) (p : List HostAction) : (s.setPort p).len = s.len := rfl
@[simp] theorem State.setPort_w (s : State) (p : List HostAction) : (s.setPort p).w = s.w := rfl
@[simp] theorem State.setPort_port (s : State) (p : List HostAction) : (s.setPort p).port = p := rfl
@[simp] theorem State.setPort_responses (s : State) (p : List HostAction) : (s.setPort p).responses = s.responses := rfl

@[simp] theorem State.setWord_cfg (s : State) (d : WordReg) (v : Word) : (s.setWord d v).cfg = s.cfg := rfl
@[simp] theorem State.setWord_mode (s : State) (d : WordReg) (v : Word) : (s.setWord d v).mode = s.mode := rfl
@[simp] theorem State.setWord_table (s : State) (d : WordReg) (v : Word) : (s.setWord d v).table = s.table := rfl
@[simp] theorem State.setWord_buf (s : State) (d : WordReg) (v : Word) : (s.setWord d v).buf = s.buf := rfl
@[simp] theorem State.setWord_len (s : State) (d : WordReg) (v : Word) : (s.setWord d v).len = s.len := rfl
@[simp] theorem State.setWord_w (s : State) (d : WordReg) (v : Word) : (s.setWord d v).w = s.w.set d.val v d.isLt := rfl
@[simp] theorem State.setWord_port (s : State) (d : WordReg) (v : Word) : (s.setWord d v).port = s.port := rfl
@[simp] theorem State.setWord_responses (s : State) (d : WordReg) (v : Word) : (s.setWord d v).responses = s.responses := rfl

@[simp] theorem State.answer_cfg (s : State) (st : Status) (d : Data) : (s.answer st d).cfg = s.cfg := rfl
@[simp] theorem State.answer_mode (s : State) (st : Status) (d : Data) : (s.answer st d).mode = s.mode := rfl
@[simp] theorem State.answer_table (s : State) (st : Status) (d : Data) : (s.answer st d).table = s.table := rfl
@[simp] theorem State.answer_buf (s : State) (st : Status) (d : Data) : (s.answer st d).buf = s.buf := rfl
@[simp] theorem State.answer_len (s : State) (st : Status) (d : Data) : (s.answer st d).len = s.len := rfl
@[simp] theorem State.answer_w (s : State) (st : Status) (d : Data) : (s.answer st d).w = s.w := rfl
@[simp] theorem State.answer_port (s : State) (st : Status) (d : Data) : (s.answer st d).port = s.port := rfl
@[simp] theorem State.answer_responses (s : State) (st : Status) (d : Data) : (s.answer st d).responses = s.responses ++ [⟨st, d⟩] := rfl

@[simp] theorem State.respond_cfg {n : Nat} (s : State) (v : BitVec n) : (s.respond v).cfg = s.cfg := rfl
@[simp] theorem State.respond_mode {n : Nat} (s : State) (v : BitVec n) : (s.respond v).mode = s.mode := rfl
@[simp] theorem State.respond_table {n : Nat} (s : State) (v : BitVec n) : (s.respond v).table = s.table := rfl
@[simp] theorem State.respond_buf {n : Nat} (s : State) (v : BitVec n) : (s.respond v).buf = s.buf := rfl
@[simp] theorem State.respond_len {n : Nat} (s : State) (v : BitVec n) : (s.respond v).len = s.len := rfl
@[simp] theorem State.respond_w {n : Nat} (s : State) (v : BitVec n) : (s.respond v).w = s.w := rfl
@[simp] theorem State.respond_port {n : Nat} (s : State) (v : BitVec n) : (s.respond v).port = s.port := rfl
@[simp] theorem State.respond_responses {n : Nat} (s : State) (v : BitVec n) : (s.respond v).responses = s.responses ++ [⟨.ok, v.setWidth 64⟩] := rfl

@[simp] theorem State.raise_cfg {n : Nat} (s : State) (st : Status) (v : BitVec n) : (s.raise st v).cfg = s.cfg := rfl
@[simp] theorem State.raise_mode {n : Nat} (s : State) (st : Status) (v : BitVec n) : (s.raise st v).mode = s.mode := rfl
@[simp] theorem State.raise_table {n : Nat} (s : State) (st : Status) (v : BitVec n) : (s.raise st v).table = s.table := rfl
@[simp] theorem State.raise_buf {n : Nat} (s : State) (st : Status) (v : BitVec n) : (s.raise st v).buf = s.buf := rfl
@[simp] theorem State.raise_len {n : Nat} (s : State) (st : Status) (v : BitVec n) : (s.raise st v).len = s.len := rfl
@[simp] theorem State.raise_w {n : Nat} (s : State) (st : Status) (v : BitVec n) : (s.raise st v).w = s.w := rfl
@[simp] theorem State.raise_port {n : Nat} (s : State) (st : Status) (v : BitVec n) : (s.raise st v).port = s.port := rfl
@[simp] theorem State.raise_responses {n : Nat} (s : State) (st : Status) (v : BitVec n) : (s.raise st v).responses = s.responses ++ [⟨st, v.setWidth 64⟩] := rfl

@[simp] theorem State.resetUnit_cfg (s : State) : s.resetUnit.cfg = ⟨0x31#8, 0xFF#8, 0x00#8⟩ := rfl
@[simp] theorem State.resetUnit_mode (s : State) : s.resetUnit.mode = .unconfigured := rfl
@[simp] theorem State.resetUnit_table (s : State) : s.resetUnit.table = Vector.replicate 256 0x00#8 := rfl
@[simp] theorem State.resetUnit_buf (s : State) : s.resetUnit.buf = [] := rfl
@[simp] theorem State.resetUnit_len (s : State) : s.resetUnit.len = 0x00#8 := rfl
@[simp] theorem State.resetUnit_w (s : State) : s.resetUnit.w = Vector.replicate NW 0x0000#16 := rfl
@[simp] theorem State.resetUnit_port (s : State) : s.resetUnit.port = s.port := rfl
@[simp] theorem State.resetUnit_responses (s : State) : s.resetUnit.responses = s.responses := rfl

/-- A state is its fields. -/
theorem State.eq_of_fields {s t : State} (h1 : s.cfg = t.cfg) (h2 : s.mode = t.mode) (h3 : s.table = t.table)
    (h4 : s.buf = t.buf) (h5 : s.len = t.len) (h6 : s.w = t.w) (h7 : s.port = t.port)
    (h8 : s.responses = t.responses) : s = t := by
  cases s; cases t; simp_all

end Sys2Proof.Machine
end

