-- ==== Sys2Proof/Laws/Exec.lean ====
section
/-! SUPPORT. Once for each command, every way it can reach a next state; then what every command has in common. Later
proofs cite these and do not unfold the meanings. -/

namespace Sys2Proof.Machine

/-! ## One command at a time -/

theorem execCsrw_next {csr : Csr} {v : Byte} {s t : State} (h : execCsrw csr v s = .next t) :
    (s.cfg.write csr v = none ∧ t = s.raise .illegalCommand 0#8) ∨
    (∃ c, s.cfg.write csr v = some c ∧ s.mode ≠ .unconfigured ∧ t = s.raise .configLocked 0#8) ∨
    ∃ c, s.cfg.write csr v = some c ∧ s.mode = .unconfigured ∧ t = (s.setCfg c).respond 0#8 := by
  unfold execCsrw at h
  split at h
  · cases h; exact .inl ⟨by assumption, rfl⟩
  · rename_i c hc
    split at h <;> rename_i hl <;> cases h
    · exact .inr (.inl ⟨c, hc, Mode.locked_eq_true.1 hl, rfl⟩)
    · exact .inr (.inr ⟨c, hc, Mode.locked_eq_false.1 (Bool.eq_false_iff.2 hl), rfl⟩)

theorem execSelftest_next {s t : State} (h : execSelftest s = .next t) :
    (s.mode ≠ .unconfigured ∧ t = s.raise .configLocked 0#8) ∨
    (s.mode = .unconfigured ∧
      t = ((s.setTable (crcTable s.cfg.poly)).setMode (selfTestMode (checksum s.cfg CHECK_STRING))).answer
        (selfTestStatus (checksum s.cfg CHECK_STRING))
        ((info2 CHECK_VALUE (checksum s.cfg CHECK_STRING)).setWidth 64)) := by
  unfold execSelftest at h
  split at h <;> rename_i hl <;> cases h
  · exact .inl ⟨Mode.locked_eq_true.1 hl, rfl⟩
  · exact .inr ⟨Mode.locked_eq_false.1 (Bool.eq_false_iff.2 hl), rfl⟩

theorem execPushb_next {v : Byte} {s t : State} (h : execPushb v s = .next t) :
    (s.len.toNat = BUF_BYTES ∧ t = s.raise .bufferOverflow s.len) ∨
    ∃ m, s.len.toNat < BUF_BYTES ∧ s.buf.write s.len.toNat v = some m ∧
      t = ((s.setBuf m).setLen (s.len + 1)).respond (s.len + 1) := by
  unfold execPushb at h
  split at h
  · cases h; exact .inl ⟨by assumption, rfl⟩
  · split at h
    · cases h
    · rename_i m hm
      cases h
      exact .inr ⟨m, (Memory.write_eq_some.1 hm).1, hm, rfl⟩

theorem execStb_next {addr v : Byte} {s t : State} (h : execStb addr v s = .next t) :
    (s.len.toNat ≤ addr.toNat ∧ t = s.raise .addressRange s.len) ∨
    ∃ m, addr.toNat < s.len.toNat ∧ s.buf.write addr.toNat v = some m ∧ t = (s.setBuf m).respond 0#8 := by
  unfold execStb at h
  split at h
  · cases h; exact .inl ⟨by assumption, rfl⟩
  · split at h
    · cases h
    · rename_i m hm
      cases h
      exact .inr ⟨m, by omega, hm, rfl⟩

theorem execLdb_next {addr : Byte} {s t : State} (h : execLdb addr s = .next t) :
    (s.len.toNat ≤ addr.toNat ∧ t = s.raise .addressRange s.len) ∨
    ∃ b, addr.toNat < s.len.toNat ∧ s.buf.read addr.toNat = some b ∧ t = s.respond b := by
  unfold execLdb at h
  split at h
  · cases h; exact .inl ⟨by assumption, rfl⟩
  · split at h
    · cases h
    · rename_i b hb
      cases h
      exact .inr ⟨b, by omega, hb, rfl⟩

theorem execCrc_next {off len : Byte} {s t : State} (h : execCrc off len s = .next t) :
    (∃ st, s.mode.gate = some st ∧ t = s.raise st 0#8) ∨
    (s.mode = .ready ∧ s.len.toNat < off.toNat + len.toNat ∧ t = s.raise .addressRange s.len) ∨
    ∃ bytes, s.mode = .ready ∧ off.toNat + len.toNat ≤ s.len.toNat ∧
      s.buf.readSpan off.toNat len.toNat = some bytes ∧ t = s.respond (checksum s.cfg bytes) := by
  unfold execCrc at h
  split at h
  · rename_i st hst; cases h; exact .inl ⟨st, hst, rfl⟩
  · rename_i hg
    have hr := Mode.gate_eq_none.1 hg
    split at h
    · cases h; exact .inr (.inl ⟨hr, by assumption, rfl⟩)
    · split at h
      · cases h
      · rename_i bytes hb
        cases h
        exact .inr (.inr ⟨bytes, hr, by omega, hb, rfl⟩)

theorem execCrcv_next {off len : Byte} {s t : State} (h : execCrcv off len s = .next t) :
    (∃ st, s.mode.gate = some st ∧ t = s.raise st 0#8) ∨
    (s.mode = .ready ∧ s.len.toNat < off.toNat + len.toNat + 1 ∧ t = s.raise .addressRange s.len) ∨
    ∃ bytes actual, s.mode = .ready ∧ off.toNat + len.toNat + 1 ≤ s.len.toNat ∧
      s.buf.readSpan off.toNat len.toNat = some bytes ∧ s.buf.read (off.toNat + len.toNat) = some actual ∧
      ((checksum s.cfg bytes = actual ∧ t = s.respond (checksum s.cfg bytes)) ∨
        (checksum s.cfg bytes ≠ actual ∧
          t = s.raise .checksumMismatch (info3 0x00#8 (checksum s.cfg bytes) actual))) := by
  unfold execCrcv at h
  split at h
  · rename_i st hst; cases h; exact .inl ⟨st, hst, rfl⟩
  · rename_i hg
    have hr := Mode.gate_eq_none.1 hg
    split at h
    · cases h; exact .inr (.inl ⟨hr, by assumption, rfl⟩)
    · split at h
      · rename_i bytes actual hb ha
        refine .inr (.inr ⟨bytes, actual, hr, by omega, hb, ha, ?_⟩)
        simp only at h
        split at h <;> rename_i hc <;> cases h
        · exact .inl ⟨hc, rfl⟩
        · exact .inr ⟨hc, rfl⟩
      · cases h

theorem execPack_next {src : WordReg} {s t : State} (h : execPack src s = .next t) :
    (∃ st, s.mode.gate = some st ∧ t = s.raise st 0#8) ∨
    (s.mode = .ready ∧ BUF_BYTES < s.len.toNat + 3 ∧ t = s.raise .bufferOverflow s.len) ∨
    ∃ m, s.mode = .ready ∧ s.len.toNat + 3 ≤ BUF_BYTES ∧
      s.buf.writeSpan s.len.toNat (packWord s.cfg (s.word src)) = some m ∧
      t = ((s.setBuf m).setLen (s.len + 3)).respond
        (frameBits (highByte (s.word src)) (lowByte (s.word src)) (frameChecksum s.cfg (s.word src))) := by
  unfold execPack at h
  split at h
  · rename_i st hst; cases h; exact .inl ⟨st, hst, rfl⟩
  · rename_i hg
    have hr := Mode.gate_eq_none.1 hg
    split at h
    · cases h; exact .inr (.inl ⟨hr, by assumption, rfl⟩)
    · simp only at h
      split at h
      · cases h
      · rename_i m hm
        cases h
        exact .inr (.inr ⟨m, hr, by omega, hm, rfl⟩)

theorem execUnframe_next {count : Byte} {s t : State} (h : execUnframe count s = .next t) :
    (∃ st, s.mode.gate = some st ∧ t = s.raise st 0#8) ∨
    (s.mode = .ready ∧ NW < count.toNat ∧ t = s.raise .countRange (BitVec.ofNat 8 NW)) ∨
    (s.mode = .ready ∧ count.toNat ≤ NW ∧ s.len.toNat ≠ 3 * count.toNat ∧
      t = s.raise .lengthMismatch (info2 count s.len)) ∨
    ∃ bytes, s.mode = .ready ∧ count.toNat ≤ NW ∧ s.len.toNat = 3 * count.toNat ∧
      s.buf.readSpan 0 s.len.toNat = some bytes ∧
      ((∃ i e a, unframe s.cfg bytes count.toNat = .error (.checksumMismatch i e a) ∧
          t = s.raise .checksumMismatch (info3 (BitVec.ofNat 8 i) e a)) ∨
        ∃ words, unframe s.cfg bytes count.toNat = .ok words ∧ words.length = count.toNat ∧
          t = (s.setWords (writeWords s.w 0 words)).respond count) := by
  unfold execUnframe at h
  split at h
  · rename_i st hst; cases h; exact .inl ⟨st, hst, rfl⟩
  · rename_i hg
    have hr := Mode.gate_eq_none.1 hg
    split at h
    · cases h; exact .inr (.inl ⟨hr, by assumption, rfl⟩)
    · split at h
      · cases h; exact .inr (.inr (.inl ⟨hr, by omega, by assumption, rfl⟩))
      · rename_i hc hlen
        split at h
        · cases h
        · rename_i bytes hb
          have hlen' : s.len.toNat = 3 * count.toNat := Classical.not_not.1 hlen
          have hbl : bytes.length = 3 * count.toNat := by rw [(Memory.readSpan_eq_some.1 hb).1, hlen']
          refine .inr (.inr (.inr ⟨bytes, hr, by omega, hlen', hb, ?_⟩))
          rcases unframeGroups_cases s.cfg 0 hbl with ⟨words, hw, hwl⟩ | ⟨i, e, a, he, -⟩
          · rw [← unframe_of_length_eq hbl] at hw
            rw [hw] at h
            cases h
            exact .inr ⟨words, hw, hwl, rfl⟩
          · rw [← unframe_of_length_eq hbl] at he
            rw [he] at h
            cases h
            exact .inl ⟨i, e, a, he, rfl⟩

theorem execCombine_next {n : Byte} {s t : State} (h : execCombine n s = .next t) :
    (∃ st, s.mode.gate = some st ∧ t = s.raise st 0#8) ∨
    (s.mode = .ready ∧ (n.toNat = 0 ∨ 4 < n.toNat) ∧ t = s.raise .countRange 4#8) ∨
    (s.mode = .ready ∧ 1 ≤ n.toNat ∧ n.toNat ≤ 4 ∧ t = s.respond (joinWords (s.firstWords n.toNat))) := by
  unfold execCombine at h
  split at h
  · rename_i st hst; cases h; exact .inl ⟨st, hst, rfl⟩
  · rename_i hg
    have hr := Mode.gate_eq_none.1 hg
    split at h
    · cases h; exact .inr (.inl ⟨hr, by assumption, rfl⟩)
    · rename_i hn
      have hl := firstWords_length s (n := n.toNat) (by show _ ≤ 4; omega)
      rw [combineWords_of_length (by omega) (by omega)] at h
      cases h
      exact .inr (.inr ⟨hr, by omega, by omega, rfl⟩)

/-! ## All commands -/

/-- A command that completes is answered by exactly one response and leaves the port alone. -/
theorem exec_answers {i : Instr} {s t : State} (h : exec i s = .next t) :
    t.port = s.port ∧ ∃ r, t.responses = s.responses ++ [r] := by
  cases i with
  | reset => cases h; exact ⟨rfl, _, rfl⟩
  | csrr csr => cases h; exact ⟨rfl, _, rfl⟩
  | csrw csr v => rcases execCsrw_next h with ⟨-, rfl⟩ | ⟨_, -, -, rfl⟩ | ⟨_, -, -, rfl⟩ <;> exact ⟨rfl, _, rfl⟩
  | selftest =>
    rcases execSelftest_next h with ⟨-, rfl⟩ | ⟨-, rfl⟩
    · exact ⟨rfl, _, rfl⟩
    · refine ⟨by simp only [State.answer_port, State.setMode_port, State.setTable_port],
        ⟨selfTestStatus (checksum s.cfg CHECK_STRING), (info2 CHECK_VALUE (checksum s.cfg CHECK_STRING)).setWidth 64⟩, ?_⟩
      simp only [State.answer_responses, State.setMode_responses, State.setTable_responses]
  | clrb => cases h; exact ⟨rfl, _, rfl⟩
  | pushb v => rcases execPushb_next h with ⟨-, rfl⟩ | ⟨_, -, -, rfl⟩ <;> exact ⟨rfl, _, rfl⟩
  | stb a v => rcases execStb_next h with ⟨-, rfl⟩ | ⟨_, -, -, rfl⟩ <;> exact ⟨rfl, _, rfl⟩
  | ldb a => rcases execLdb_next h with ⟨-, rfl⟩ | ⟨_, -, -, rfl⟩ <;> exact ⟨rfl, _, rfl⟩
  | crc off len =>
    rcases execCrc_next h with ⟨_, -, rfl⟩ | ⟨-, -, rfl⟩ | ⟨_, -, -, -, rfl⟩ <;> exact ⟨rfl, _, rfl⟩
  | crcv off len =>
    rcases execCrcv_next h with ⟨_, -, rfl⟩ | ⟨-, -, rfl⟩ | ⟨_, _, -, -, -, -, ⟨-, rfl⟩ | ⟨-, rfl⟩⟩ <;>
      exact ⟨rfl, _, rfl⟩
  | ldw d v => cases h; exact ⟨rfl, _, rfl⟩
  | rdw r => cases h; exact ⟨rfl, _, rfl⟩
  | pack r => rcases execPack_next h with ⟨_, -, rfl⟩ | ⟨-, -, rfl⟩ | ⟨_, -, -, -, rfl⟩ <;> exact ⟨rfl, _, rfl⟩
  | unframe n =>
    rcases execUnframe_next h with ⟨_, -, rfl⟩ | ⟨-, -, rfl⟩ | ⟨-, -, -, rfl⟩ |
      ⟨_, -, -, -, -, ⟨_, _, _, -, rfl⟩ | ⟨_, -, -, rfl⟩⟩ <;> exact ⟨rfl, _, rfl⟩
  | combine n => rcases execCombine_next h with ⟨_, -, rfl⟩ | ⟨-, -, rfl⟩ | ⟨-, -, -, rfl⟩ <;> exact ⟨rfl, _, rfl⟩

/-- No command is refused: every arm has a meaning and no meaning answers with a refusal. -/
theorem exec_not_refused (i : Instr) (s : State) (r : Refusal) : exec i s ≠ .refused r := by
  intro h
  cases i <;> simp only [exec, execReset, execCsrr, execCsrw, execSelftest, execClrb, execPushb, execStb, execLdb,
    execCrc, execCrcv, execLdw, execRdw, execPack, execUnframe, execCombine] at h <;>
    repeat' (first | cases h | split at h)

/-- A command keeps the memory's canonical form. -/
theorem exec_keeps_wf {i : Instr} {s t : State} (hw : Memory.wf s.buf) (h : exec i s = .next t) : Memory.wf t.buf := by
  cases i with
  | reset => cases h; exact Memory.empty_wf
  | csrr csr => cases h; exact hw
  | csrw csr v => rcases execCsrw_next h with ⟨-, rfl⟩ | ⟨_, -, -, rfl⟩ | ⟨_, -, -, rfl⟩ <;> exact hw
  | selftest =>
    rcases execSelftest_next h with ⟨-, rfl⟩ | ⟨-, rfl⟩
    · exact hw
    · simpa only [State.answer_buf, State.setMode_buf, State.setTable_buf] using hw
  | clrb => cases h; exact hw
  | pushb v =>
    rcases execPushb_next h with ⟨-, rfl⟩ | ⟨_, -, hm, rfl⟩
    · exact hw
    · exact Memory.write_wf hw hm
  | stb a v =>
    rcases execStb_next h with ⟨-, rfl⟩ | ⟨_, -, hm, rfl⟩
    · exact hw
    · exact Memory.write_wf hw hm
  | ldb a => rcases execLdb_next h with ⟨-, rfl⟩ | ⟨_, -, -, rfl⟩ <;> exact hw
  | crc off len => rcases execCrc_next h with ⟨_, -, rfl⟩ | ⟨-, -, rfl⟩ | ⟨_, -, -, -, rfl⟩ <;> exact hw
  | crcv off len =>
    rcases execCrcv_next h with ⟨_, -, rfl⟩ | ⟨-, -, rfl⟩ | ⟨_, _, -, -, -, -, ⟨-, rfl⟩ | ⟨-, rfl⟩⟩ <;> exact hw
  | ldw d v => cases h; exact hw
  | rdw r => cases h; exact hw
  | pack r =>
    rcases execPack_next h with ⟨_, -, rfl⟩ | ⟨-, -, rfl⟩ | ⟨_, -, -, hm, rfl⟩
    · exact hw
    · exact hw
    · exact (Memory.read_writeSpan hw hm).1
  | unframe n =>
    rcases execUnframe_next h with ⟨_, -, rfl⟩ | ⟨-, -, rfl⟩ | ⟨-, -, -, rfl⟩ |
      ⟨_, -, -, -, -, ⟨_, _, _, -, rfl⟩ | ⟨_, -, -, rfl⟩⟩ <;> exact hw
  | combine n => rcases execCombine_next h with ⟨_, -, rfl⟩ | ⟨-, -, rfl⟩ | ⟨-, -, -, rfl⟩ <;> exact hw

end Sys2Proof.Machine
end

