-- ==== Sys2Proof/Laws/PerInstr.lean ====
section
/-! SUPPORT. One statement about every instruction as syntax: its word selects its own row of the opcode table (R86), so
match and mask of the table and the encoder agree for every operand. One lemma per constructor. -/

namespace Sys2Proof.Laws.EncodeMatchesRow

open Sys2Proof

/-- The word of an instruction selects the row that R86 gives its mnemonic. -/
def Statement (i : Instr) : Prop := (opcodeRow i).selects (encode i) = true

/-- A word given by its fields selects a row when each field does. -/
theorem selects_fields {r : OpcodeRow} {op fa fb fc : Byte} (h1 : op &&& fieldOp r.mask = fieldOp r.pattern)
    (h2 : fa &&& fieldFa r.mask = fieldFa r.pattern) (h3 : fb &&& fieldFb r.mask = fieldFb r.pattern)
    (h4 : fc &&& fieldFc r.mask = fieldFc r.pattern) : r.selects (commandWord op fa fb fc) = true :=
  (OpcodeRow.selects_iff _ _).2 ⟨by rwa [fieldOp_commandWord], by rwa [fieldFa_commandWord],
    by rwa [fieldFb_commandWord], by rwa [fieldFc_commandWord]⟩

/-- A field that a row leaves free. -/
theorem free {x m p : Byte} (hm : m = 0#8) (hp : p = 0#8) : x &&& m = p := by
  subst hm hp; exact BitVec.and_zero

theorem reset : Statement .reset :=
  selects_fields (r := opcodeRow .reset)
    (by decide) (by decide) (by decide) (by decide)

theorem csrr (csr : Csr) : Statement (.csrr csr) :=
  selects_fields (r := opcodeRow (.csrr .poly))
    (by decide) (free (by decide) (by decide)) (by decide) (by decide)

theorem csrw (csr : Csr) (imm8 : Byte) : Statement (.csrw csr imm8) :=
  selects_fields (r := opcodeRow (.csrw .poly 0))
    (by decide) (free (by decide) (by decide)) (by decide) (free (by decide) (by decide))

theorem selftest : Statement .selftest :=
  selects_fields (r := opcodeRow .selftest)
    (by decide) (by decide) (by decide) (by decide)

theorem clrb : Statement .clrb :=
  selects_fields (r := opcodeRow .clrb)
    (by decide) (by decide) (by decide) (by decide)

theorem pushb (imm8 : Byte) : Statement (.pushb imm8) :=
  selects_fields (r := opcodeRow (.pushb 0))
    (by decide) (by decide) (by decide) (free (by decide) (by decide))

theorem stb (addr imm8 : Byte) : Statement (.stb addr imm8) :=
  selects_fields (r := opcodeRow (.stb 0 0))
    (by decide) (by decide) (free (by decide) (by decide)) (free (by decide) (by decide))

theorem ldb (addr : Byte) : Statement (.ldb addr) :=
  selects_fields (r := opcodeRow (.ldb 0))
    (by decide) (by decide) (by decide) (free (by decide) (by decide))

theorem crc (off len : Byte) : Statement (.crc off len) :=
  selects_fields (r := opcodeRow (.crc 0 0))
    (by decide) (by decide) (free (by decide) (by decide)) (free (by decide) (by decide))

theorem crcv (off len : Byte) : Statement (.crcv off len) :=
  selects_fields (r := opcodeRow (.crcv 0 0))
    (by decide) (by decide) (free (by decide) (by decide)) (free (by decide) (by decide))

theorem ldw (d : WordReg) (imm16 : Word) : Statement (.ldw d imm16) :=
  selects_fields (r := opcodeRow (.ldw 0 0))
    (by decide) (free (by decide) (by decide)) (free (by decide) (by decide)) (free (by decide) (by decide))

theorem rdw (src : WordReg) : Statement (.rdw src) :=
  selects_fields (r := opcodeRow (.rdw 0))
    (by decide) (free (by decide) (by decide)) (by decide) (by decide)

theorem pack (src : WordReg) : Statement (.pack src) :=
  selects_fields (r := opcodeRow (.pack 0))
    (by decide) (free (by decide) (by decide)) (by decide) (by decide)

theorem unframe (count : Byte) : Statement (.unframe count) :=
  selects_fields (r := opcodeRow (.unframe 0))
    (by decide) (by decide) (by decide) (free (by decide) (by decide))

theorem combine (n : Byte) : Statement (.combine n) :=
  selects_fields (r := opcodeRow (.combine 0))
    (by decide) (by decide) (by decide) (free (by decide) (by decide))

end Sys2Proof.Laws.EncodeMatchesRow
end

