-- ==== Sys2Proof/Laws/Step.lean ====
section
/-! SUPPORT. Once for the step, every case of it; and runs of several steps. -/

namespace Sys2Proof.Machine

/-- Every case of a step: nothing at the port, the reset input, a command that decodes, a word that does not. -/
theorem step_cases (s : State) :
    (s.port = [] ∧ step s = .next s) ∨
    (∃ rest, s.port = .reset :: rest ∧ step s = .next (s.setPort rest).resetUnit) ∨
    (∃ v rest i, s.port = .command v :: rest ∧ decode v = .ok i ∧ step s = exec i (s.setPort rest)) ∨
    ∃ v rest e, s.port = .command v :: rest ∧ decode v = .error e ∧
      step s = .next ((s.setPort rest).raise .illegalCommand 0#8) := by
  unfold step State.takeAction
  split
  · rename_i h
    split at h
    · exact .inl ⟨by assumption, rfl⟩
    · cases h
  · rename_i h
    split at h
    · cases h
    · cases h; exact .inr (.inl ⟨_, by assumption, rfl⟩)
  · rename_i v s' h
    split at h
    · cases h
    · cases h
      split
      · exact .inr (.inr (.inl ⟨_, _, _, by assumption, by assumption, rfl⟩))
      · exact .inr (.inr (.inr ⟨_, _, _, by assumption, by assumption, rfl⟩))

/-- A word placed with `withFetchWord` is the one the next step takes. -/
theorem step_withFetchWord (s : State) (nbits w : Nat) :
    step (s.withFetchWord nbits w) =
      match decode (BitVec.ofNat 32 (w % 2 ^ nbits)) with
      | .ok i => exec i s
      | .error _ => .next (s.raise .illegalCommand 0#8) := rfl

/-- No step is refused. -/
theorem step_not_refused (s : State) (r : Refusal) : step s ≠ .refused r := by
  rcases step_cases s with ⟨-, h⟩ | ⟨_, -, h⟩ | ⟨_, _, i, -, -, h⟩ | ⟨_, _, _, -, -, h⟩ <;> rw [h]
  · simp
  · simp
  · exact exec_not_refused i _ r
  · simp

/-- The first of `k + 1` steps. -/
theorem run_succ (k : Nat) (s : State) :
    core.run (k + 1) s =
      match step s with
      | .next s' => core.run k s'
      | .fault f => .fault f
      | .refused r => .refused r := by
  refine (Host.Core.run.eq_2 core s k).trans ?_
  have h : core.step s = step s := rfl
  rw [h]
  cases step s <;> rfl

/-- A run of `k + 1` steps that ends in a next state went through a next state. -/
theorem run_succ_next {k : Nat} {s t : State} (h : core.run (k + 1) s = .next t) :
    ∃ u, step s = .next u ∧ core.run k u = .next t := by
  rw [run_succ] at h
  split at h
  · exact ⟨_, by assumption, h⟩
  · cases h
  · cases h

theorem run_of_step {k : Nat} {s u : State} (h : step s = .next u) : core.run (k + 1) s = core.run k u := by
  rw [run_succ, h]

end Sys2Proof.Machine
end

