-- ==== Sys2Proof/Tests/Slice0.lean ====
section
/-! SUPPORT. Tests: the well-formedness smoke test, words written out from the bit patterns of R86, single commands with
the responses spec/95_test_vectors.md gives, and for each obligation with hypotheses a state and operands that meet them. -/

namespace Sys2Proof.Tests

open Sys2Proof Sys2Proof.Machine

/-! ## Small states -/

/-- BUF holding these bytes from address 0 on. -/
def load (bytes : List Byte) : Memory := (Memory.writeSpan [] 0 bytes).getD []

/-- The normative configuration in a given MODE, with these bytes in the buffer and these words in W0 to W3. -/
def unitIn (mode : Mode) (bytes : List Byte) (words : Vector Word NW) : State :=
  { State.reset with
    mode := mode, table := crcTable 0x31, buf := load bytes, len := BitVec.ofNat 8 bytes.length, w := words }

def zeros : Vector Word NW := Vector.replicate NW 0

/-- MODE = READY, the buffer as given, W all zero. -/
def ready (bytes : List Byte) : State := unitIn .ready bytes zeros

/-- MODE = FAILED after the check of (0x07, 0xFF, 0x00) (95_test_vectors.md P6). -/
def failed (bytes : List Byte) : State :=
  { unitIn .failed bytes zeros with cfg := ⟨0x07, 0xFF, 0x00⟩, table := crcTable 0x07 }

/-- The reply of DOC0 section 8 (95_test_vectors.md S11) and the one with a wrong second check byte (S12). -/
def goodReply : List Byte := [0x01, 0x02, 0x17, 0x03, 0x04, 0x68]

def badReply : List Byte := [0x01, 0x02, 0x17, 0x03, 0x04, 0x00]

/-- Twelve bytes, four frames (95_test_vectors.md section 2.6). -/
def fourFrames : List Byte := [0x12, 0x34, 0x37, 0x00, 0x00, 0x81, 0xBE, 0xEF, 0x92, 0xFF, 0xFF, 0xAC]

/-- A state no run reaches: LEN = 13. -/
def tooLong : State := { ready fourFrames with len := 13 }

/-- The next state, if there is one. -/
def nextOf : Host.Outcome State Fault Refusal → Option State
  | .next t => some t
  | .fault _ => none
  | .refused _ => none

/-- The response given last. -/
def answerOf (o : Host.Outcome State Fault Refusal) : Option Response := (nextOf o).bind (·.responses.getLast?)

/-! ## Well-formedness (R79 item 4) -/

theorem test_csrw_status_ill_formed : Instr.wellFormed (.csrw .status 0) = false := by decide

theorem test_csrw_len_ill_formed : Instr.wellFormed (.csrw .len 5) = false := by decide

theorem test_csrw_xorOut_well_formed : Instr.wellFormed (.csrw .xorOut 0x55) = true := by decide

/-! ## Decoding: words from the bit patterns of R86, fields op, fa, fb, fc -/

theorem test_decode_reset : decode 0x01000000#32 = .ok .reset := by decide

theorem test_decode_csrr : decode 0x02040000#32 = .ok (.csrr .len) := by decide

theorem test_decode_csrw : decode 0x03010080#32 = .ok (.csrw .init 0x80) := by decide

theorem test_decode_selftest : decode 0x04000000#32 = .ok .selftest := by decide

theorem test_decode_clrb : decode 0x10000000#32 = .ok .clrb := by decide

theorem test_decode_pushb : decode 0x110000AB#32 = .ok (.pushb 0xAB) := by decide

theorem test_decode_stb : decode 0x12000568#32 = .ok (.stb 5 0x68) := by decide

theorem test_decode_ldb : decode 0x13000008#32 = .ok (.ldb 8) := by decide

theorem test_decode_crc : decode 0x20000405#32 = .ok (.crc 4 5) := by decide

theorem test_decode_crcv : decode 0x21000302#32 = .ok (.crcv 3 2) := by decide

theorem test_decode_ldw : decode 0x3002DCBE#32 = .ok (.ldw 2 0xDCBE) := by decide

theorem test_decode_rdw : decode 0x31030000#32 = .ok (.rdw 3) := by decide

theorem test_decode_pack : decode 0x32010000#32 = .ok (.pack 1) := by decide

theorem test_decode_unframe : decode 0x330000FF#32 = .ok (.unframe 0xFF) := by decide

theorem test_decode_combine : decode 0x34000004#32 = .ok (.combine 4) := by decide

/-- 95_test_vectors.md section 2.11, in its order: refused by name. -/
theorem test_decode_illegal :
    [0x00000000#32, 0xFF000000#32, 0x05000000#32, 0x14000000#32, 0x22000000#32, 0x35000000#32, 0x01000001#32,
      0x02050000#32, 0x02000001#32, 0x03030000#32, 0x03040005#32, 0x03000100#32, 0x11000100#32, 0x20010000#32,
      0x30040000#32, 0x31000001#32, 0x33000100#32].map decode =
    [.error .unassignedOpcode, .error .unassignedOpcode, .error .unassignedOpcode, .error .unassignedOpcode,
      .error .unassignedOpcode, .error .unassignedOpcode, .error .nonzeroMustBeZero,
      .error .noSuchCsr, .error .nonzeroMustBeZero, .error .readOnlyCsr, .error .readOnlyCsr,
      .error .nonzeroMustBeZero, .error .nonzeroMustBeZero, .error .nonzeroMustBeZero,
      .error .noSuchWordReg, .error .nonzeroMustBeZero, .error .nonzeroMustBeZero] := by decide

/-- The bit numbering of spec/opcode_table.json: one word of 32 bits, bit 0 the least significant. -/
theorem test_decodeTableWord : decodeTableWord 32 0x12000568 = some (.stb 5 0x68) ∧
    decodeTableWord 32 0x32040000 = none := by decide

/-- The word placed for the next step is the first one run after reset (95_test_vectors.md section 2.9). -/
theorem test_withFetchWord :
    (nextOf (step (State.reset.withFetchWord 32 0x110000AB))).map (fun t => (t.buf, t.len, t.port, t.responses)) =
      some ([(0, 0xAB)], 1, [], [⟨.ok, 1⟩]) := by decide

/-! ## One command each, the responses of 95_test_vectors.md section 2 -/

/-- 2.10: the reset state from any state. -/
theorem test_reset : (nextOf (exec .reset (failed goodReply))).map (fun t => (t.cfg, t.mode, t.buf, t.len)) =
    some (⟨0x31, 0xFF, 0x00⟩, .unconfigured, [], 0) := by decide

/-- 2.10: MODE = FAILED reads as 0x02. -/
theorem test_csrr_status : answerOf (exec (.csrr .status) (failed [])) = some ⟨.ok, 0x02⟩ := by decide

/-- P1 step 19. -/
theorem test_csrr_len : answerOf (exec (.csrr .len) (ready CHECK_STRING)) = some ⟨.ok, 9⟩ := by decide

/-- 2.10. -/
theorem test_csrw_poly : (nextOf (exec (.csrw .poly 0x07) State.reset)).map (·.cfg) = some ⟨0x07, 0xFF, 0x00⟩ := by
  decide

/-- 2.10: locked once checked. -/
theorem test_csrw_locked : (nextOf (exec (.csrw .xorOut 0) (ready []))).map (fun t => (t.cfg, t.responses)) =
    some (⟨0x31, 0xFF, 0x00⟩, [⟨.configLocked, 0⟩]) := by decide

/-- 2.10, with the table of 2.3 at 0x01 and 0xCE; and 2.4, row (0x07, 0xFF, 0x00). -/
theorem test_selftest :
    (nextOf (exec .selftest State.reset)).map (fun t => (t.mode, t.table[0x01], t.table[0xCE], t.responses)) =
      some (.ready, 0x31, 0x58, [⟨.ok, 0xF7F7⟩]) ∧
    (nextOf (exec .selftest { State.reset with cfg := ⟨0x07, 0xFF, 0x00⟩ })).map (fun t => (t.mode, t.responses)) =
      some (.failed, [⟨.selfTestFail, 0xF7FB⟩]) := by decide +kernel

/-- 2.9: LEN = 12, CLRB; the bytes stay (R120). -/
theorem test_clrb : (nextOf (exec .clrb (ready fourFrames))).map (fun t => (t.buf, t.len, t.responses)) =
    some (load fourFrames, 0, [⟨.ok, 0⟩]) := by decide

/-- 2.9: the twelfth byte is the last one. -/
theorem test_pushb_last : (nextOf (exec (.pushb 0xAB) (ready (fourFrames.take 11)))).map (fun t =>
    (t.len, t.buf.read 11, t.responses)) = some (12, some 0xAB, [⟨.ok, 12⟩]) := by decide

theorem test_pushb_overflow : answerOf (exec (.pushb 0) (ready fourFrames)) = some ⟨.bufferOverflow, 12⟩ := by decide

/-- P4 step 16, and 2.9. -/
theorem test_stb : (nextOf (exec (.stb 5 0x68) (ready badReply))).map (fun t => (t.buf, t.len)) =
    some (load goodReply, 6) := by decide

theorem test_stb_at_len : answerOf (exec (.stb 1 0xCD) (ready [0xAB])) = some ⟨.addressRange, 1⟩ := by decide

/-- P2 steps 11 and 12. -/
theorem test_ldb : answerOf (exec (.ldb 7) (ready ([0x20, 0x1E] ++ goodReply))) = some ⟨.ok, 0x68⟩ := by decide

theorem test_ldb_at_len : answerOf (exec (.ldb 8) (ready ([0x20, 0x1E] ++ goodReply))) = some ⟨.addressRange, 8⟩ := by
  decide

/-- 2.8: a span not starting at 0. -/
theorem test_crc : answerOf (exec (.crc 4 5) (ready CHECK_STRING)) = some ⟨.ok, 0x6C⟩ := by decide +kernel

/-- 2.8: the sum 510 does not wrap. -/
theorem test_crc_no_wrap : answerOf (exec (.crc 255 255) (ready CHECK_STRING)) = some ⟨.addressRange, 9⟩ := by decide

/-- 2.8: expected 0x54, found 0x39; and P4 step 14. -/
theorem test_crcv : answerOf (exec (.crcv 0 8) (ready CHECK_STRING)) = some ⟨.checksumMismatch, 0x005439⟩ ∧
    answerOf (exec (.crcv 0 2) (ready badReply)) = some ⟨.ok, 0x17⟩ := by decide +kernel

/-- 2.8: the check byte would be at address 9. -/
theorem test_crcv_at_len : answerOf (exec (.crcv 0 9) (ready CHECK_STRING)) = some ⟨.addressRange, 9⟩ := by decide

/-- P8 steps 2 and 9. -/
theorem test_ldw : (nextOf (exec (.ldw 3 0xFFFF) State.reset)).map (·.w.toList) = some [0, 0, 0, 0xFFFF] := by decide

theorem test_rdw : answerOf (exec (.rdw 1) (unitIn .ready [] #v[0x0102, 0x0304, 0, 0])) = some ⟨.ok, 0x0304⟩ := by
  decide

/-- 2.5: LEN = 9 leaves LEN = 12; LEN = 10 overflows. -/
theorem test_pack : (nextOf (exec (.pack 2) (unitIn .ready (fourFrames.take 9) #v[0, 0, 0xFFFF, 0]))).map (fun t =>
    (t.buf, t.len, t.responses)) = some (load fourFrames, 12, [⟨.ok, 0xFFFFAC⟩]) := by decide +kernel

theorem test_pack_overflow : answerOf (exec (.pack 0) (ready (fourFrames.take 10))) = some ⟨.bufferOverflow, 10⟩ := by
  decide

/-- 2.6, rows 5 and 7. -/
theorem test_unframe : (nextOf (exec (.unframe 4) (ready fourFrames))).map (fun t => (t.w.toList, t.responses)) =
    some ([0x1234, 0x0000, 0xBEEF, 0xFFFF], [⟨.ok, 4⟩]) ∧
    (nextOf (exec (.unframe 2) (unitIn .ready [0x01, 0x02, 0x18, 0x03, 0x04, 0x00]
      #v[0xAAAA, 0xBBBB, 0xCCCC, 0xDDDD]))).map (fun t => (t.w.toList, t.responses)) =
    some ([0xAAAA, 0xBBBB, 0xCCCC, 0xDDDD], [⟨.checksumMismatch, 0x001718⟩]) := by decide +kernel

/-- 2.6, row 8: a count that does not fit the buffer. -/
theorem test_unframe_length : answerOf (exec (.unframe 1) (ready goodReply)) = some ⟨.lengthMismatch, 0x0106⟩ := by decide

/-- 2.7. -/
theorem test_combine : answerOf (exec (.combine 4) (unitIn .ready [] #v[0x1234, 0x0000, 0xBEEF, 0xFFFF])) =
    some ⟨.ok, 0x12340000BEEFFFFF⟩ := by decide

theorem test_combine_range : answerOf (exec (.combine 5) (ready [])) = some ⟨.countRange, 4⟩ := by decide

/-! ## Witnesses: for each obligation with hypotheses, a state and operands that meet them, at the bounds of each clause -/

/-- The checksums and decoded buffers the witnesses rest on (95_test_vectors.md sections 2.4 to 2.6). -/
theorem values :
    checksum ⟨0x31, 0xFF, 0x00⟩ CHECK_STRING = 0xF7#8 ∧ checksum ⟨0x07, 0xFF, 0x00⟩ CHECK_STRING ≠ 0xF7#8 ∧
      checksum ⟨0x31, 0xFF, 0xFF⟩ CHECK_STRING ≠ 0xF7#8 ∧
      unframe ⟨0x31, 0xFF, 0x00⟩ goodReply 2 = .ok [0x0102, 0x0304] ∧
      unframe ⟨0x31, 0xFF, 0x00⟩ badReply 2 = .error (.checksumMismatch 1 0x68 0x00) ∧
      checksum ⟨0x31, 0xFF, 0x00⟩ [0x01, 0x02] = 0x17#8 ∧ checksum ⟨0x31, 0xFF, 0x00⟩ [0x03, 0x04] ≠ 0x00#8 := by
  decide +kernel

/-- A ready unit with a buffer in its canonical form meets the invariant. -/
theorem ready_inv {bytes : List Byte} {words : Vector Word NW} (h1 : bytes.length ≤ 12)
    (h2 : Memory.wf (load bytes)) : (unitIn .ready bytes words).Inv := by
  refine ⟨?_, ⟨fun _ => ?_, fun h => Mode.noConfusion h⟩, fun _ i => crcTable_getElem 0x31 i, h2⟩
  · show bytes.length % 256 ≤ 12
    omega
  · exact values.1

/-- A unit whose check of (0x07, 0xFF, 0x00) failed meets it too. -/
theorem failed_inv {bytes : List Byte} (h1 : bytes.length ≤ 12) (h2 : Memory.wf (load bytes)) :
    (failed bytes).Inv := by
  refine ⟨?_, ⟨fun h => Mode.noConfusion h, fun _ => ?_⟩, fun _ i => crcTable_getElem 0x07 i, h2⟩
  · show bytes.length % 256 ≤ 12
    omega
  · exact values.2.1

theorem witness_DecodeOfEncodeIsTheCommand : Instr.wellFormed (.csrw .xorOut 0xFF) = true ∧
    Instr.wellFormed (.ldw 3 0xFFFF) = true := by decide

theorem witness_EncodeOfDecodeIsTheWord : decode 0x3003FFFF#32 = .ok (.ldw 3 0xFFFF) ∧
    decode 0x02040000#32 = .ok (.csrr .len) := by decide

/-- The last legal and the first illegal number of each narrow field. -/
theorem witness_DecodingFollowsTheOpcodeTable :
    fieldsLegal 0x02040000#32 = true ∧ fieldsLegal 0x02050000#32 = false ∧ fieldsLegal 0x03020000#32 = true ∧
      fieldsLegal 0x03030000#32 = false ∧ fieldsLegal 0x32030000#32 = true ∧ fieldsLegal 0x32040000#32 = false ∧
      (opcodeTable.filter (·.selects 0x32040000#32)).map (·.mnemonic) = ["PACK"] ∧
      opcodeTable.filter (·.selects 0x05000000#32) = [] := by decide

theorem witness_IllegalWordsAreAnsweredIllegalCommand :
    (∃ e, decode 0x32040000#32 = .error e) ∧
      ((ready []).setPort [.command 0x32040000#32, .reset]).port = .command 0x32040000#32 :: [.reset] :=
  ⟨⟨_, rfl⟩, rfl⟩

theorem witness_StepRunsTheDecodedCommand :
    ((ready []).setPort [.command 0x110000AB#32, .reset]).port = .command 0x110000AB#32 :: [.reset] ∧
      decode 0x110000AB#32 = .ok (.pushb 0xAB) := by decide

theorem witness_ResetInputResetsWithoutAResponse :
    ((failed goodReply).setPort [.reset]).port = .reset :: [] := by decide

theorem witness_IdleUnitHoldsItsState : (ready goodReply).port = [] := by decide

theorem witness_EveryStepKeepsTheInvariant : ∃ t,
    ((unitIn .ready fourFrames zeros).setPort [.command 0x10000000#32]).Inv ∧
      step ((unitIn .ready fourFrames zeros).setPort [.command 0x10000000#32]) = .next t :=
  ⟨_, ready_inv (bytes := fourFrames) (words := zeros) (by decide) (by decide), rfl⟩

theorem witness_EveryActionCompletes :
    ((failed fourFrames).setPort [.reset, .command 0xFFFFFFFF#32]).Inv ∧
      ((failed fourFrames).setPort [.command 0xFFFFFFFF#32]).Inv ∧
      HostAction.answered .reset = false ∧ HostAction.answered (.command 0xFFFFFFFF#32) = true :=
  ⟨failed_inv (bytes := fourFrames) (by decide) (by decide),
    failed_inv (bytes := fourFrames) (by decide) (by decide), rfl, rfl⟩

theorem witness_RunAnswersEveryCommandWord :
    ((failed []).setPort [.command 0x04000000#32, .reset, .command 0x04000000#32]).Inv :=
  failed_inv (bytes := []) (by decide) (by decide)

/-- LEN = 13 and the addresses 12 (valid by LEN, not there) and 13 (not below LEN). -/
theorem witness_AddressesThatDoNotExistFault :
    BUF_BYTES < tooLong.len.toNat ∧ BUF_BYTES ≤ (12#8).toNat ∧ (12#8).toNat < tooLong.len.toNat ∧
      ¬ (13#8).toNat < tooLong.len.toNat ∧ tooLong.mode = .ready := by decide

/-- An illegal form, and a command other than RESET in FAILED and in READY. -/
theorem witness_ResetCommandRestoresTheResetState : ∃ t u,
    (fieldOp 0x01000001#32 = 0x01#8 ∧ (0x01000001#32).extractLsb' 0 24 ≠ 0) ∧
      Instr.selftest ≠ .reset ∧ (failed []).mode ≠ .unconfigured ∧ exec .selftest (failed []) = .next t ∧
      (ready []).mode ≠ .unconfigured ∧ exec .selftest (ready []) = .next u :=
  ⟨_, _, by decide, by decide, by decide, rfl, by decide, rfl⟩

theorem witness_CsrrReadsEachRegister :
    (fieldOp 0x02050000#32 = 0x02#8 ∧ 0x04 < (fieldFa 0x02050000#32).toNat) ∧
      (fieldOp 0x02000001#32 = 0x02#8 ∧ fieldFc 0x02000001#32 ≠ 0) ∧
      State.reset.mode = .unconfigured ∧ (ready []).mode = .ready ∧ (failed []).mode = .failed := by decide

theorem witness_CsrwWritesOnlyAnUncheckedConfiguration :
    (fieldOp 0x03030000#32 = 0x03#8 ∧ 0x02 < (fieldFa 0x03030000#32).toNat) ∧
      (fieldOp 0x03000100#32 = 0x03#8 ∧ fieldFb 0x03000100#32 ≠ 0) ∧
      State.reset.mode = .unconfigured ∧ (ready []).mode ≠ .unconfigured ∧ (failed []).mode ≠ .unconfigured := by
  decide

theorem witness_SelftestChecksTheConfigurationOnce :
    (fieldOp 0x04000001#32 = 0x04#8 ∧ (0x04000001#32).extractLsb' 0 24 ≠ 0) ∧
      (ready []).mode ≠ .unconfigured ∧ State.reset.mode = .unconfigured ∧
      checksum State.reset.cfg CHECK_STRING = 0xF7#8 ∧ checksum ⟨0x31, 0xFF, 0xFF⟩ CHECK_STRING ≠ 0xF7#8 :=
  ⟨by decide, by decide, by decide, values.1, values.2.2.1⟩

/-- Each of the four ways MODE can go. -/
theorem witness_ModeFollowsItsLifeCycle :
    (HostAction.resets .reset = true ∧ HostAction.resets (.command 0x01000000#32) = true) ∧
      HostAction.selfTests (.command 0x04000000#32) = true ∧
      (nextOf (step (State.reset.setPort [.command 0x04000000#32]))).map (·.mode) = some .ready ∧
      (nextOf (step ((failed []).setPort [.command 0x04000000#32]))).map (·.mode) = some .failed ∧
      (nextOf (step ((failed []).setPort [.reset]))).map (·.mode) = some .unconfigured ∧
      (nextOf (step ((ready []).setPort [.command 0x00000000#32]))).map (·.mode) = some .ready := by decide +kernel

theorem witness_CheckedConfigurationIsImmutable : ∃ t u v,
    exec .selftest State.reset = .next t ∧
      (ready []).mode ≠ .unconfigured ∧ exec (.csrw .poly 0x07) (ready []) = .next u ∧
      (∀ a ∈ ((ready []).setPort [.command 0x03000007#32, .reset]).port.take 1, a.resets = false) ∧
      core.run 1 ((ready []).setPort [.command 0x03000007#32, .reset]) = .next v :=
  ⟨_, _, _, rfl, by decide, rfl, by decide, rfl⟩

/-- Both ends: a step that writes the configuration, and one that does not. -/
theorem witness_UnwrittenConfigurationIsNormative : ∃ t u,
    State.reset.cfg = ⟨0x31#8, 0xFF#8, 0x00#8⟩ ∧
      step (State.reset.setPort [.command 0x03000007#32]) = .next t ∧ t.cfg = ⟨0x07#8, 0xFF#8, 0x00#8⟩ ∧
      step (State.reset.setPort [.command 0x10000000#32]) = .next u ∧ u.mode = .unconfigured :=
  ⟨_, _, rfl, rfl, rfl, rfl, rfl⟩

theorem witness_ClrbEmptiesTheBuffer :
    fieldOp 0x10000100#32 = 0x10#8 ∧ (0x10000100#32).extractLsb' 0 24 ≠ 0 := by decide

/-- LEN = 12 and LEN = 11, on either side of the bound. -/
theorem witness_PushbAppendsOneByte :
    (fieldOp 0x11000100#32 = 0x11#8 ∧ fieldFb 0x11000100#32 ≠ 0) ∧
      (ready fourFrames).len.toNat = BUF_BYTES ∧
      (ready (fourFrames.take 11)).len.toNat < BUF_BYTES ∧ Memory.wf (ready (fourFrames.take 11)).buf := by decide

/-- The addresses LEN and LEN - 1 of a full buffer. -/
theorem witness_StbOverwritesAValidByte :
    (fieldOp 0x12010000#32 = 0x12#8 ∧ fieldFa 0x12010000#32 ≠ 0) ∧
      (ready fourFrames).len.toNat ≤ (12#8).toNat ∧ (11#8).toNat < (ready fourFrames).len.toNat ∧
      (ready fourFrames).len.toNat ≤ BUF_BYTES ∧ Memory.wf (ready fourFrames).buf := by decide

theorem witness_LdbReadsAValidByte :
    (fieldOp 0x13010000#32 = 0x13#8 ∧ fieldFa 0x13010000#32 ≠ 0) ∧
      (ready fourFrames).len.toNat ≤ (12#8).toNat ∧ (11#8).toNat < (ready fourFrames).len.toNat ∧
      (ready fourFrames).len.toNat ≤ BUF_BYTES := by decide

theorem witness_LoadedBytesReadBack : (failed goodReply).Inv ∧ fourFrames.length ≤ BUF_BYTES :=
  ⟨failed_inv (by decide) (by decide), by decide⟩

theorem witness_LdbAfterStbGivesTheByte : ∃ t, (ready badReply).Inv ∧ (5#8).toNat < (ready badReply).len.toNat ∧
    exec (.stb 5 0x68) (ready badReply) = .next t :=
  ⟨_, ready_inv (by decide) (by decide), by decide, rfl⟩

/-- 95_test_vectors.md section 2.1, on both sides of bit 7. -/
theorem witness_BitStepShiftsAndFoldsTheTopBit :
    128 ≤ (0x80#8).toNat ∧ crcBitStep 0x31 0x80 = 0x31 ∧ crcBitStep 0x31 0xFF = 0xCF ∧ (0x7F#8).toNat < 128 ∧
      crcBitStep 0x31 0x7F = 0xFE := by decide

theorem witness_TableComputesEveryChecksum : (failed []).Inv ∧ (failed []).mode ≠ .unconfigured :=
  ⟨failed_inv (by decide) (by decide), by decide⟩

/-- The span up to LEN, the first one beyond it, and the two modes that are refused. -/
theorem witness_CrcAnswersTheChecksumOfASpan :
    (fieldOp 0x20010000#32 = 0x20#8 ∧ fieldFa 0x20010000#32 ≠ 0) ∧
      State.reset.mode = .unconfigured ∧ (failed []).mode = .failed ∧ (ready CHECK_STRING).mode = .ready ∧
      (ready CHECK_STRING).len.toNat < (1#8).toNat + (9#8).toNat ∧
      (0#8).toNat + (9#8).toNat ≤ (ready CHECK_STRING).len.toNat ∧
      (9#8).toNat + (0#8).toNat ≤ (ready CHECK_STRING).len.toNat ∧
      (ready CHECK_STRING).len.toNat ≤ BUF_BYTES := by decide

/-- As for CRC, with a check byte that is right (0x17) and one that is wrong (0x00). -/
theorem witness_CrcvComparesTheByteAfterTheSpan :
    (fieldOp 0x21010000#32 = 0x21#8 ∧ fieldFa 0x21010000#32 ≠ 0) ∧
      State.reset.mode = .unconfigured ∧ (failed []).mode = .failed ∧ (ready badReply).mode = .ready ∧
      (ready badReply).len.toNat < (3#8).toNat + (3#8).toNat + 1 ∧
      (3#8).toNat + (2#8).toNat + 1 ≤ (ready badReply).len.toNat ∧ (ready badReply).len.toNat ≤ BUF_BYTES ∧
      checksum (ready badReply).cfg [0x01, 0x02] = 0x17#8 ∧ checksum (ready badReply).cfg [0x03, 0x04] ≠ 0x00#8 :=
  ⟨by decide, by decide, by decide, by decide, by decide, by decide, by decide, values.2.2.2.2.2⟩

theorem witness_UnframeAcceptsExactlyFrames :
    unframe ⟨0x31, 0xFF, 0x00⟩ goodReply 2 = .ok [0x0102, 0x0304] := values.2.2.2.1

theorem witness_UnframeReportsTheFirstMismatch :
    unframe ⟨0x31, 0xFF, 0x00⟩ badReply 2 = .error (.checksumMismatch 1 0x68 0x00) ∧
      unframe ⟨0x31, 0xFF, 0x00⟩ badReply 1 = .error (.lengthMismatch 6 1) := ⟨values.2.2.2.2.1, by decide⟩

theorem witness_CombineWordsIsBigEndian :
    combineWords [0x4321, 0x8765, 0xDCBE] = some 0x43218765DCBE ∧
      combineWords [0x1234, 0x0000, 0xBEEF, 0xFFFF] = some 0x12340000BEEFFFFF ∧ combineWords [] = none ∧
      combineWords [1, 2, 3, 4, 5] = none := by decide

theorem witness_LdwWritesOneRegister :
    fieldOp 0x30040000#32 = 0x30#8 ∧ NW ≤ (fieldFa 0x30040000#32).toNat ∧ (2 : WordReg) ≠ 3 := by decide

theorem witness_RdwReadsOneRegister :
    (fieldOp 0x31040000#32 = 0x31#8 ∧ NW ≤ (fieldFa 0x31040000#32).toNat) ∧
      fieldOp 0x31000001#32 = 0x31#8 ∧ fieldFc 0x31000001#32 ≠ 0 := by decide

/-- LEN = 9, 10, and the two modes that are refused. -/
theorem witness_PackAppendsTheFrame :
    (fieldOp 0x32040000#32 = 0x32#8 ∧ NW ≤ (fieldFa 0x32040000#32).toNat) ∧
      State.reset.mode = .unconfigured ∧ (failed []).mode = .failed ∧ (ready (fourFrames.take 9)).mode = .ready ∧
      BUF_BYTES < (ready (fourFrames.take 10)).len.toNat + 3 ∧
      (ready (fourFrames.take 9)).len.toNat + 3 ≤ BUF_BYTES ∧ Memory.wf (ready (fourFrames.take 9)).buf := by decide

/-- Counts 5, 3 (of a buffer of two groups) and 2, a good buffer and a bad one, and the two modes that are refused. -/
theorem witness_UnframeWritesAllWordsOrNone :
    (fieldOp 0x33000100#32 = 0x33#8 ∧ fieldFb 0x33000100#32 ≠ 0) ∧
      State.reset.mode = .unconfigured ∧ (failed []).mode = .failed ∧ (ready goodReply).mode = .ready ∧
      NW < (5#8).toNat ∧ (3#8).toNat ≤ NW ∧ (ready goodReply).len.toNat ≠ 3 * (3#8).toNat ∧
      (ready goodReply).len.toNat = 3 * (2#8).toNat ∧
      unframe (ready goodReply).cfg goodReply 2 = .ok [0x0102, 0x0304] ∧
      unframe (ready badReply).cfg badReply 2 = .error (.checksumMismatch 1 0x68 0x00) :=
  ⟨by decide, by decide, by decide, by decide, by decide, by decide, by decide, by decide, values.2.2.2.1,
    values.2.2.2.2.1⟩

/-- Counts 0, 5, and the three modes. -/
theorem witness_CombineJoinsTheFirstWords :
    (fieldOp 0x34010000#32 = 0x34#8 ∧ fieldFa 0x34010000#32 ≠ 0) ∧
      State.reset.mode = .unconfigured ∧ (failed []).mode = .failed ∧ (ready []).mode = .ready ∧
      4 < (5#8).toNat ∧ ¬ 4 < (4#8).toNat := by decide

theorem witness_PackedBytesReadBack : ∃ t, (ready (fourFrames.take 9)).Inv ∧
    (ready (fourFrames.take 9)).mode = .ready ∧ (ready (fourFrames.take 9)).len.toNat + 3 ≤ BUF_BYTES ∧
    exec (.pack 3) (ready (fourFrames.take 9)) = .next t :=
  ⟨_, ready_inv (by decide) (by decide), by decide, by decide, rfl⟩

theorem witness_PushedFrameUnframesToItsWord : (ready []).Inv ∧ (ready []).mode = .ready ∧ (ready []).len = 0 :=
  ⟨ready_inv (by decide) (by decide), by decide, by decide⟩

theorem witness_PackThenUnframeRestoresTheWords :
    (unitIn .ready goodReply #v[0x1234, 0x0000, 0xBEEF, 0xFFFF]).Inv ∧
      (unitIn .ready goodReply #v[0x1234, 0x0000, 0xBEEF, 0xFFFF]).mode = .ready ∧ 0 ≤ NW ∧ 4 ≤ NW :=
  ⟨ready_inv (by decide) (by decide), by decide, by decide, by decide⟩

theorem witness_GateRefusesTheCodecUnlessReady : ∃ t r,
    Instr.gated (.unframe 5) = true ∧ State.reset.mode = .unconfigured ∧ (failed []).mode = .failed ∧
      exec (.unframe 5) (ready []) = .next t ∧ t.responses = (ready []).responses ++ [r] ∧
      Instr.gated (.pushb 0) = false :=
  ⟨_, _, rfl, rfl, rfl, rfl, rfl, rfl⟩

/-- An illegal word and an address beyond LEN; test_selftest holds a command that answers SelfTestFail. -/
theorem witness_ErrorResponsesChangeNothing : ∃ t u r q,
    ((ready []).setPort [.command 0x32040000#32]).port = .command 0x32040000#32 :: [] ∧
      step ((ready []).setPort [.command 0x32040000#32]) = .next t ∧ t.responses = (ready []).responses ++ [r] ∧
      r.status ≠ .ok ∧ r.status ≠ .selfTestFail ∧
      step ((ready []).setPort [.command 0x13000000#32]) = .next u ∧ u.responses = (ready []).responses ++ [q] ∧
      q.status = .addressRange :=
  ⟨_, _, _, _, rfl, rfl, rfl, by decide, by decide, rfl, rfl, rfl⟩

theorem witness_EachCommandAnswersOnlyItsStatuses : ∃ t,
    Instr.wellFormed (.crcv 3 2) = true ∧ exec (.crcv 3 2) (failed []) = .next t := ⟨_, rfl, rfl⟩

theorem witness_WordRegistersChangeOnlyBy :
    (nextOf (exec (.ldw 3 0xFFFF) (ready []))).map (fun t => decide (t.w[3] ≠ (ready []).w[3])) = some true := by
  decide

/-- A command that writes a register, and one that reads none. -/
theorem witness_WordRegistersAreReadOnlyBy : ∃ t u,
    Instr.readsWords (.ldw 3 0xFFFF) = false ∧ exec (.ldw 3 0xFFFF) (ready []) = .next t ∧
      Instr.readsWords (.unframe 0) = false ∧ exec (.unframe 0) (ready []) = .next u := ⟨_, _, rfl, rfl, rfl, rfl⟩

theorem witness_BufferBytesChangeOnlyBy :
    Memory.wf (ready badReply).buf ∧
      (nextOf (exec (.stb 5 0x68) (ready badReply))).map (fun t =>
        decide (t.buf.read 5 ≠ (ready badReply).buf.read 5)) = some true := by decide

theorem witness_LenChangesOnlyBy :
    (nextOf (exec (.pushb 0) (ready []))).map (fun t => decide (t.len ≠ (ready []).len)) = some true := by decide

theorem witness_ReadsAreIdempotent : ∃ t,
    Instr.readsOnly (.ldb 5) = true ∧ exec (.ldb 5) (ready badReply) = .next t := ⟨_, rfl, rfl⟩

/-- A count out of range; test_unframe holds one that writes registers and one that finds a mismatch. -/
theorem witness_UnframeIsIdempotent : ∃ t, exec (.unframe 5) (ready fourFrames) = .next t := ⟨_, rfl⟩

/-- Two states that differ in a byte at LEN and in TABLE. -/
theorem witness_HiddenStateHasNoEffect :
    ({ ready [] with buf := [(0, 1)] } : State).Indistinguishable { ready [] with table := crcTable 0x07 } := by
  refine ⟨rfl, rfl, rfl, rfl, rfl, rfl, by decide, by decide, fun a h => ?_⟩
  exact absurd h (Nat.not_lt_zero a)

theorem witness_HiddenStateIsNeverObserved : ∃ t,
    ({ ready [] with buf := [(0, 1)] } : State).Indistinguishable { ready [] with table := crcTable 0x07 } ∧
      core.run 3 { ready [] with buf := [(0, 1)] } = .next t :=
  ⟨_, witness_HiddenStateHasNoEffect, rfl⟩

end Sys2Proof.Tests
end

section
/-! PROOFS of the statements of spec/10_state.md: the values reset leaves (R32), and the immutability of the checked
configuration (R36). The second goes by one fact per layer: a command, a step, a run. -/

namespace Sys2Proof

/-! ## The word of a command -/

theorem exceptBind_eq_ok {ε α β : Type} {x : Except ε α} {f : α → Except ε β} {b : β} :
    x.bind f = .ok b ↔ ∃ a, x = .ok a ∧ f a = .ok b := by
  cases x <;> simp [Except.bind]

theorem exceptMap_eq_ok {ε α β : Type} {x : Except ε α} {f : α → β} {b : β} :
    x.map f = .ok b ↔ ∃ a, x = .ok a ∧ f a = b := by
  cases x <;> simp [Except.map]

theorem csrwOf_ne_reset (csr : Csr) (v : Byte) : csrwOf csr v ≠ .ok .reset := by
  unfold csrwOf; split <;> simp

/-- Only the opcode of RESET decodes to RESET (R78). -/
theorem fieldOp_of_decode_reset {v : Command} (h : decode v = .ok .reset) : fieldOp v = 0x01#8 := by
  unfold decode at h
  split at h
  case h_1 hop => exact hop
  all_goals simp [needZero_eq_ok, exceptMap_eq_ok, exceptBind_eq_ok, csrwOf_ne_reset] at h

/-- The one word that decodes to RESET (R100). -/
theorem eq_of_decode_reset {v : Command} (h : decode v = .ok .reset) : v = 0x01000000#32 := by
  have hop := fieldOp_of_decode_reset h
  rw [decode_reset hop] at h
  obtain ⟨ha, h⟩ := needZero_eq_ok.1 h
  obtain ⟨hb, h⟩ := needZero_eq_ok.1 h
  obtain ⟨hc, -⟩ := needZero_eq_ok.1 h
  exact eq_of_fields hop ha hb hc

end Sys2Proof

namespace Sys2Proof.Machine

/-! ## The checked configuration -/

/-- The second state holds the configuration, MODE and TABLE of the first: what R36 fixes until the next reset. -/
def State.SameCheck (s t : State) : Prop := t.cfg = s.cfg ∧ t.mode = s.mode ∧ t.table = s.table

theorem State.SameCheck.refl (s : State) : s.SameCheck s := ⟨rfl, rfl, rfl⟩

theorem State.SameCheck.trans {s t u : State} (h1 : s.SameCheck t) (h2 : t.SameCheck u) : s.SameCheck u := by
  obtain ⟨hc, hm, ht⟩ := h1
  obtain ⟨hc', hm', ht'⟩ := h2
  exact ⟨hc'.trans hc, hm'.trans hm, ht'.trans ht⟩

/-- RESET, CSRW and SELFTEST apart, no command writes the configuration, MODE or TABLE, in any MODE (R21, R25, R30). -/
theorem exec_sameCheck {i : Instr} {s t : State} (hr : i ≠ .reset) (hs : i ≠ .selftest)
    (hw : ∀ csr v, i ≠ .csrw csr v) (h : exec i s = .next t) : s.SameCheck t := by
  cases i with
  | reset => exact absurd rfl hr
  | csrr csr => cases h; exact ⟨rfl, rfl, rfl⟩
  | csrw csr v => exact absurd rfl (hw csr v)
  | selftest => exact absurd rfl hs
  | clrb => cases h; exact ⟨rfl, rfl, rfl⟩
  | pushb v => rcases execPushb_next h with ⟨-, rfl⟩ | ⟨_, -, -, rfl⟩ <;> exact ⟨rfl, rfl, rfl⟩
  | stb a v => rcases execStb_next h with ⟨-, rfl⟩ | ⟨_, -, -, rfl⟩ <;> exact ⟨rfl, rfl, rfl⟩
  | ldb a => rcases execLdb_next h with ⟨-, rfl⟩ | ⟨_, -, -, rfl⟩ <;> exact ⟨rfl, rfl, rfl⟩
  | crc off len =>
    rcases execCrc_next h with ⟨_, -, rfl⟩ | ⟨-, -, rfl⟩ | ⟨_, -, -, -, rfl⟩ <;> exact ⟨rfl, rfl, rfl⟩
  | crcv off len =>
    rcases execCrcv_next h with ⟨_, -, rfl⟩ | ⟨-, -, rfl⟩ | ⟨_, _, -, -, -, -, ⟨-, rfl⟩ | ⟨-, rfl⟩⟩ <;>
      exact ⟨rfl, rfl, rfl⟩
  | ldw d v => cases h; exact ⟨rfl, rfl, rfl⟩
  | rdw r => cases h; exact ⟨rfl, rfl, rfl⟩
  | pack r =>
    rcases execPack_next h with ⟨_, -, rfl⟩ | ⟨-, -, rfl⟩ | ⟨_, -, -, -, rfl⟩ <;> exact ⟨rfl, rfl, rfl⟩
  | unframe n =>
    rcases execUnframe_next h with ⟨_, -, rfl⟩ | ⟨-, -, rfl⟩ | ⟨-, -, -, rfl⟩ |
      ⟨_, -, -, -, -, ⟨_, _, _, -, rfl⟩ | ⟨_, -, -, rfl⟩⟩ <;> exact ⟨rfl, rfl, rfl⟩
  | combine n =>
    rcases execCombine_next h with ⟨_, -, rfl⟩ | ⟨-, -, rfl⟩ | ⟨-, -, -, rfl⟩ <;> exact ⟨rfl, rfl, rfl⟩

/-- CSRW answers an error and writes nothing once MODE is not UNCONFIGURED (R104). -/
theorem execCsrw_locked_sameCheck {csr : Csr} {v : Byte} {s t : State} (hm : s.mode ≠ .unconfigured)
    (h : execCsrw csr v s = .next t) : s.SameCheck t := by
  rcases execCsrw_next h with ⟨-, rfl⟩ | ⟨_, -, -, rfl⟩ | ⟨_, -, hu, -⟩
  · exact ⟨rfl, rfl, rfl⟩
  · exact ⟨rfl, rfl, rfl⟩
  · exact absurd hu hm

/-- SELFTEST answers ConfigLocked and writes nothing once MODE is not UNCONFIGURED (R106). -/
theorem execSelftest_locked_sameCheck {s t : State} (hm : s.mode ≠ .unconfigured) (h : execSelftest s = .next t) :
    s.SameCheck t := by
  rcases execSelftest_next h with ⟨-, rfl⟩ | ⟨hu, -⟩
  · exact ⟨rfl, rfl, rfl⟩
  · exact absurd hu hm

theorem selfTestMode_ne_unconfigured (v : Byte) : selfTestMode v ≠ .unconfigured := by
  unfold selfTestMode; split <;> simp

/-- After SELFTEST the configuration is locked, whether it passed, failed or was refused (R36, R106). -/
theorem execSelftest_mode_ne_unconfigured {s t : State} (h : execSelftest s = .next t) : t.mode ≠ .unconfigured := by
  rcases execSelftest_next h with ⟨hm, rfl⟩ | ⟨-, rfl⟩
  · exact hm
  · rw [State.answer_mode, State.setMode_mode]
    exact selfTestMode_ne_unconfigured _

/-- One command: once MODE is not UNCONFIGURED, only RESET writes the configuration, MODE or TABLE. -/
theorem exec_locked_sameCheck {i : Instr} {s t : State} (hm : s.mode ≠ .unconfigured) (hr : i ≠ .reset)
    (h : exec i s = .next t) : s.SameCheck t := by
  by_cases hs : i = .selftest
  · subst hs; exact execSelftest_locked_sameCheck hm h
  · by_cases hw : ∃ csr v, i = .csrw csr v
    · obtain ⟨csr, v, rfl⟩ := hw
      exact execCsrw_locked_sameCheck hm h
    · exact exec_sameCheck hr hs (fun csr v hi => hw ⟨csr, v, hi⟩) h

/-! ## Steps and runs -/

/-- A step takes the oldest host action, if there is one, and puts none at the port (R231). -/
theorem step_port {s t : State} (h : step s = .next t) : t.port = s.port.tail := by
  rcases step_cases s with ⟨hp, hs⟩ | ⟨rest, hp, hs⟩ | ⟨v, rest, i, hp, -, hs⟩ | ⟨v, rest, e, hp, -, hs⟩ <;>
    rw [hs] at h <;> rw [hp]
  · cases h; exact hp
  · cases h; rfl
  · exact (exec_answers h).1
  · cases h; rfl

/-- One step: once MODE is not UNCONFIGURED, a host action that is no reset keeps the checked configuration. -/
theorem step_locked_sameCheck {s t : State} (hm : s.mode ≠ .unconfigured)
    (ha : ∀ a ∈ s.port.head?, a.resets = false) (h : step s = .next t) : s.SameCheck t := by
  rcases step_cases s with ⟨-, hs⟩ | ⟨rest, hp, -⟩ | ⟨v, rest, i, hp, hd, hs⟩ | ⟨v, rest, e, -, -, hs⟩
  · rw [hs] at h; cases h; exact .refl _
  · rw [hp] at ha; exact absurd (ha .reset rfl) (by decide)
  · have hr : i ≠ .reset := by
      rintro rfl
      rw [hp, eq_of_decode_reset hd] at ha
      exact absurd (ha _ rfl) (by decide)
    rw [hs] at h
    exact exec_locked_sameCheck (s := s.setPort rest) hm hr h
  · rw [hs] at h; cases h; exact ⟨rfl, rfl, rfl⟩

/-- Any number of steps: MODE stays what it is, so the lock holds for every step of the run. -/
theorem run_locked_sameCheck {k : Nat} {s t : State} (hm : s.mode ≠ .unconfigured)
    (ha : ∀ a ∈ s.port.take k, a.resets = false) (h : core.run k s = .next t) : s.SameCheck t := by
  induction k generalizing s with
  | zero => cases h; exact .refl _
  | succ k ih =>
    obtain ⟨u, hs, hu⟩ := run_succ_next h
    have hhead : ∀ a ∈ s.port.head?, a.resets = false := fun a hin => ha a <| by
      cases hp : s.port <;> simp_all
    have htail : ∀ a ∈ u.port.take k, a.resets = false := fun a hin => ha a <| by
      rw [step_port hs] at hin
      cases hp : s.port <;> simp_all
    have hsu := step_locked_sameCheck hm hhead hs
    exact hsu.trans (ih (hsu.2.1 ▸ hm) htail hu)

/-- Settles O9: each value is the one `State.reset` writes; an unlisted byte of BUF reads as 0x00. -/
theorem resetLeavesTheStatedValues : Obligations.ResetLeavesTheStatedValues := by
  refine ⟨rfl, rfl, rfl, rfl, rfl, fun i => ?table, fun a ha => ?buf, rfl, fun r => ?word⟩
  case table => exact Vector.getElem_replicate i.isLt
  case buf => exact Memory.read_of_lt [] ha
  case word => exact Vector.getElem_replicate r.isLt

/-- Settles O22: SELFTEST locks the configuration, and over a run without a reset the lock holds, by induction on its
steps. -/
theorem checkedConfigurationIsImmutable : Obligations.CheckedConfigurationIsImmutable :=
  ⟨fun _ _ => execSelftest_mode_ne_unconfigured,
    fun _ _ _ _ hm h => (execCsrw_locked_sameCheck hm h).1,
    fun _ _ _ hm ha h => run_locked_sameCheck hm ha h⟩

end Sys2Proof.Machine
end

section
/-! PROOFS of the statements of spec/30_encoding.md: decoding is total and follows the opcode table (R87), the illegal
words are those R79 lists, and each is answered IllegalCommand (R191). The rows (R86) and the decoder are each reduced
to the same three facts about a word: its opcode is assigned, its must-be-zero fields are zero, `fieldsLegal`. -/

namespace Sys2Proof

/-! ## When a piece of the decoder refuses -/

theorem exceptError_iff {ε α : Type} {x : Except ε α} : (∃ e, x = .error e) ↔ ¬ ∃ a, x = .ok a := by
  cases x <;> simp

@[simp] theorem needZero_isError {n : Nat} {f : BitVec n} {k : Except DecodeError Instr} :
    (∃ e, needZero f k = .error e) ↔ f ≠ 0 ∨ ∃ e, k = .error e := by
  simp only [exceptError_iff, needZero_eq_ok, exists_and_left, not_and_or, ne_eq, BitVec.ofNat_eq_ofNat]

@[simp] theorem exceptMap_isError {ε α β : Type} {x : Except ε α} {f : α → β} :
    (∃ e, x.map f = .error e) ↔ ∃ e, x = .error e := by
  cases x <;> simp [Except.map]

/-- R79 item 3. -/
@[simp] theorem csrOfNumber_isError {n : Byte} : (∃ e, csrOfNumber n = .error e) ↔ 0x04 < n.toNat := by
  rw [exceptError_iff, csrOfNumber_isOk, Nat.not_le]

theorem csrwOf_eq_ok {csr : Csr} {imm8 : Byte} {i : Instr} :
    csrwOf csr imm8 = .ok i ↔ csr.writable = true ∧ .csrw csr imm8 = i := by
  unfold csrwOf; split <;> simp [*]

/-- R79 item 4. -/
@[simp] theorem csrwOfNumber_isError {n imm8 : Byte} :
    (∃ e, (csrOfNumber n).bind (csrwOf · imm8) = .error e) ↔ 0x02 < n.toNat := by
  rw [exceptError_iff, ← Nat.not_le, not_iff_not]
  simp only [exceptBind_eq_ok, csrwOf_eq_ok]
  constructor
  · rintro ⟨_, csr, hn, hw, -⟩
    rwa [csrNumber_of_eq_ok hn, ← csr_writable_iff]
  · intro h
    obtain ⟨csr, hn⟩ := (csrOfNumber_isOk n).2 (by omega)
    exact ⟨_, csr, hn, (csr_writable_iff csr).2 (csrNumber_of_eq_ok hn ▸ h), rfl⟩

/-- R79 item 5. -/
@[simp] theorem wordRegOfNumber_isError {n : Byte} : (∃ e, wordRegOfNumber n = .error e) ↔ NW ≤ n.toNat := by
  rw [exceptError_iff, wordRegOfNumber_isOk, Nat.not_lt]

/-! ## The illegal forms of each command (R79) -/

theorem illegal_reset {v : Command} (h : fieldOp v = 0x01#8) :
    Illegal v ↔ fieldFa v ≠ 0 ∨ fieldFb v ≠ 0 ∨ fieldFc v ≠ 0 := by
  simp [Illegal, decode_reset h]

theorem illegal_csrr {v : Command} (h : fieldOp v = 0x02#8) :
    Illegal v ↔ fieldFb v ≠ 0 ∨ fieldFc v ≠ 0 ∨ 0x04 < (fieldFa v).toNat := by
  simp [Illegal, decode_csrr h]

theorem illegal_csrw {v : Command} (h : fieldOp v = 0x03#8) :
    Illegal v ↔ fieldFb v ≠ 0 ∨ 0x02 < (fieldFa v).toNat := by
  simp [Illegal, decode_csrw h]

theorem illegal_selftest {v : Command} (h : fieldOp v = 0x04#8) :
    Illegal v ↔ fieldFa v ≠ 0 ∨ fieldFb v ≠ 0 ∨ fieldFc v ≠ 0 := by
  simp [Illegal, decode_selftest h]

theorem illegal_clrb {v : Command} (h : fieldOp v = 0x10#8) :
    Illegal v ↔ fieldFa v ≠ 0 ∨ fieldFb v ≠ 0 ∨ fieldFc v ≠ 0 := by
  simp [Illegal, decode_clrb h]

theorem illegal_pushb {v : Command} (h : fieldOp v = 0x11#8) : Illegal v ↔ fieldFa v ≠ 0 ∨ fieldFb v ≠ 0 := by
  simp [Illegal, decode_pushb h]

theorem illegal_stb {v : Command} (h : fieldOp v = 0x12#8) : Illegal v ↔ fieldFa v ≠ 0 := by
  simp [Illegal, decode_stb h]

theorem illegal_ldb {v : Command} (h : fieldOp v = 0x13#8) : Illegal v ↔ fieldFa v ≠ 0 ∨ fieldFb v ≠ 0 := by
  simp [Illegal, decode_ldb h]

theorem illegal_crc {v : Command} (h : fieldOp v = 0x20#8) : Illegal v ↔ fieldFa v ≠ 0 := by
  simp [Illegal, decode_crc h]

theorem illegal_crcv {v : Command} (h : fieldOp v = 0x21#8) : Illegal v ↔ fieldFa v ≠ 0 := by
  simp [Illegal, decode_crcv h]

theorem illegal_ldw {v : Command} (h : fieldOp v = 0x30#8) : Illegal v ↔ NW ≤ (fieldFa v).toNat := by
  simp [Illegal, decode_ldw h]

theorem illegal_rdw {v : Command} (h : fieldOp v = 0x31#8) :
    Illegal v ↔ fieldFb v ≠ 0 ∨ fieldFc v ≠ 0 ∨ NW ≤ (fieldFa v).toNat := by
  simp [Illegal, decode_rdw h]

theorem illegal_pack {v : Command} (h : fieldOp v = 0x32#8) :
    Illegal v ↔ fieldFb v ≠ 0 ∨ fieldFc v ≠ 0 ∨ NW ≤ (fieldFa v).toNat := by
  simp [Illegal, decode_pack h]

theorem illegal_unframe {v : Command} (h : fieldOp v = 0x33#8) : Illegal v ↔ fieldFa v ≠ 0 ∨ fieldFb v ≠ 0 := by
  simp [Illegal, decode_unframe h]

theorem illegal_combine {v : Command} (h : fieldOp v = 0x34#8) : Illegal v ↔ fieldFa v ≠ 0 ∨ fieldFb v ≠ 0 := by
  simp [Illegal, decode_combine h]

/-! ## The illegal words (R79) -/

/-- The opcodes of R78; every other one is R79 item 1. -/
abbrev assignedOpcodes : List Byte :=
  [0x01#8, 0x02#8, 0x03#8, 0x04#8, 0x10#8, 0x11#8, 0x12#8, 0x13#8, 0x20#8, 0x21#8, 0x30#8, 0x31#8, 0x32#8, 0x33#8,
    0x34#8]

/-- R79 item 2: a must-be-zero field of the word's format (R71) is not zero. -/
def NonzeroMustBeZero (v : Command) : Prop :=
  (fieldOp v ∈ [0x01#8, 0x04#8, 0x10#8] ∧ (fieldFa v ≠ 0 ∨ fieldFb v ≠ 0 ∨ fieldFc v ≠ 0)) ∨
    (fieldOp v = 0x02#8 ∧ (fieldFb v ≠ 0 ∨ fieldFc v ≠ 0)) ∨ (fieldOp v = 0x03#8 ∧ fieldFb v ≠ 0) ∨
    (fieldOp v ∈ [0x11#8, 0x13#8, 0x33#8, 0x34#8] ∧ (fieldFa v ≠ 0 ∨ fieldFb v ≠ 0)) ∨
    (fieldOp v ∈ [0x12#8, 0x20#8, 0x21#8] ∧ fieldFa v ≠ 0) ∨
    (fieldOp v ∈ [0x31#8, 0x32#8] ∧ (fieldFb v ≠ 0 ∨ fieldFc v ≠ 0))

/-- `fieldsLegal` checks R79 items 3 to 5. -/
theorem fieldsLegal_eq_false_iff (v : Command) :
    fieldsLegal v = false ↔
      (fieldOp v = 0x02#8 ∧ 0x04 < (fieldFa v).toNat) ∨ (fieldOp v = 0x03#8 ∧ 0x02 < (fieldFa v).toNat) ∨
        (fieldOp v ∈ [0x30#8, 0x31#8, 0x32#8] ∧ NW ≤ (fieldFa v).toNat) := by
  unfold fieldsLegal
  split
  case h_6 h2 h3 h30 h31 h32 => simp_all
  all_goals rename_i hop; simp [hop]

theorem illegal_iff (v : Command) :
    Illegal v ↔ fieldOp v ∉ assignedOpcodes ∨ NonzeroMustBeZero v ∨ fieldsLegal v = false := by
  by_cases h : fieldOp v ∈ assignedOpcodes
  case neg => exact iff_of_true ⟨_, decode_unassigned h⟩ (.inl h)
  simp only [h, not_true_eq_false, false_or, fieldsLegal_eq_false_iff, NonzeroMustBeZero]
  simp only [assignedOpcodes, List.mem_cons, List.not_mem_nil, or_false] at h
  rcases h with h | h | h | h | h | h | h | h | h | h | h | h | h | h | h
  · simp [illegal_reset h, h]
  · simp [illegal_csrr h, h, or_assoc]
  · simp [illegal_csrw h, h]
  · simp [illegal_selftest h, h]
  · simp [illegal_clrb h, h]
  · simp [illegal_pushb h, h]
  · simp [illegal_stb h, h]
  · simp [illegal_ldb h, h]
  · simp [illegal_crc h, h]
  · simp [illegal_crcv h, h]
  · simp [illegal_ldw h, h]
  · simp [illegal_rdw h, h, or_assoc]
  · simp [illegal_pack h, h, or_assoc]
  · simp [illegal_unframe h, h]
  · simp [illegal_combine h, h]

/-! ## The rows of R86 -/

/-- The opcode of a command (R78). -/
def Instr.opcode : Instr → Byte
  | .reset => 0x01#8
  | .csrr _ => 0x02#8
  | .csrw _ _ => 0x03#8
  | .selftest => 0x04#8
  | .clrb => 0x10#8
  | .pushb _ => 0x11#8
  | .stb _ _ => 0x12#8
  | .ldb _ => 0x13#8
  | .crc _ _ => 0x20#8
  | .crcv _ _ => 0x21#8
  | .ldw _ _ => 0x30#8
  | .rdw _ => 0x31#8
  | .pack _ => 0x32#8
  | .unframe _ => 0x33#8
  | .combine _ => 0x34#8

theorem fieldOp_opcodeRow_pattern (i : Instr) : fieldOp (opcodeRow i).pattern = i.opcode := by
  cases i <;> simp only [opcodeRow, Instr.opcode] <;> rfl

theorem opcodeRow_mem (i : Instr) : opcodeRow i ∈ opcodeTable := by
  cases i <;> simp [opcodeTable, opcodeRow]

/-- Two rows with one opcode are one row. -/
theorem eq_of_opcode_eq :
    ∀ r ∈ opcodeTable, ∀ x ∈ opcodeTable, fieldOp x.pattern = fieldOp r.pattern → x = r := by decide

theorem and_mask_eq_zero {x m : Byte} (hm : m = 0x00#8 ∨ m = 0xFF#8) : x &&& m = 0x00#8 ↔ m = 0x00#8 ∨ x = 0x00#8 := by
  rcases hm with rfl | rfl
  · simp
  · have hx : x &&& 0xFF#8 = x := BitVec.and_allOnes
    simp [hx]

/-- A row fixes `op`, and each other field it either leaves free or fixes to zero. -/
theorem OpcodeRow.selects_iff_of_mem {r : OpcodeRow} (hr : r ∈ opcodeTable) (v : Command) :
    r.selects v = true ↔ fieldOp v = fieldOp r.pattern ∧ (fieldFa r.mask = 0x00#8 ∨ fieldFa v = 0x00#8) ∧
      (fieldFb r.mask = 0x00#8 ∨ fieldFb v = 0x00#8) ∧ (fieldFc r.mask = 0x00#8 ∨ fieldFc v = 0x00#8) := by
  have rows : ∀ r ∈ opcodeTable, fieldOp r.mask = 0xFF#8 ∧
      (fieldFa r.pattern = 0x00#8 ∧ fieldFb r.pattern = 0x00#8 ∧ fieldFc r.pattern = 0x00#8) ∧
      (fieldFa r.mask = 0x00#8 ∨ fieldFa r.mask = 0xFF#8) ∧ (fieldFb r.mask = 0x00#8 ∨ fieldFb r.mask = 0xFF#8) ∧
      (fieldFc r.mask = 0x00#8 ∨ fieldFc r.mask = 0xFF#8) := by decide
  obtain ⟨hop, ⟨pa, pb, pc⟩, ma, mb, mc⟩ := rows r hr
  have hv : fieldOp v &&& 0xFF#8 = fieldOp v := BitVec.and_allOnes
  rw [OpcodeRow.selects_iff, hop, hv, pa, pb, pc, and_mask_eq_zero ma, and_mask_eq_zero mb, and_mask_eq_zero mc]

/-- R79 item 2 in terms of R86: a word with the opcode of a row selects it when its must-be-zero fields are zero. -/
theorem opcodeRow_selects_iff (i : Instr) (v : Command) :
    (opcodeRow i).selects v = true ↔ fieldOp v = i.opcode ∧ ¬ NonzeroMustBeZero v := by
  rw [OpcodeRow.selects_iff_of_mem (opcodeRow_mem i), fieldOp_opcodeRow_pattern, and_congr_right_iff]
  intro h
  cases i <;> simp +decide [NonzeroMustBeZero, opcodeRow, Instr.opcode, h]

theorem filter_selects_eq_singleton {r : OpcodeRow} {v : Command} (hr : r ∈ opcodeTable) (h : r.selects v = true) :
    opcodeTable.filter (·.selects v) = [r] := by
  have key : ∀ x ∈ opcodeTable, x.selects v = (x == r) := by
    intro x hx
    rw [Bool.eq_iff_iff, beq_iff_eq]
    refine ⟨fun hsel => eq_of_opcode_eq r hr x hx ?_, fun he => he ▸ h⟩
    rw [← fieldOp_of_selects hx hsel, ← fieldOp_of_selects hr h]
  have single : ∀ r ∈ opcodeTable, opcodeTable.filter (· == r) = [r] := by decide
  rw [List.filter_congr key, single r hr]

theorem exists_opcodeRow {r : OpcodeRow} (hr : r ∈ opcodeTable) : ∃ i, opcodeRow i = r := by
  obtain ⟨i, -, hi⟩ := List.mem_map.1 hr
  exact ⟨i, hi⟩

theorem opcode_mem_assigned (i : Instr) : i.opcode ∈ assignedOpcodes := by
  cases i <;> simp [Instr.opcode]

/-! ## What a word decodes to (R87) -/

theorem fieldOp_of_decode {v : Command} {i : Instr} (h : decode v = .ok i) : fieldOp v = i.opcode := by
  unfold decode at h
  split at h
  case h_16 => cases h
  all_goals
    rename_i hop
    simp only [needZero_eq_ok, exceptMap_eq_ok, exceptBind_eq_ok, csrwOf_eq_ok, Except.ok.injEq] at h
    grind [Instr.opcode]

/-- A word that decodes selects the row of its command and passes the field checks. -/
theorem selects_of_decode {v : Command} {i : Instr} (h : decode v = .ok i) :
    (opcodeRow i).selects v = true ∧ fieldsLegal v = true := by
  have hlegal : ¬ Illegal v := by simp [Illegal, h]
  rw [illegal_iff, not_or, not_or, Bool.not_eq_false] at hlegal
  obtain ⟨-, hzero, hfields⟩ := hlegal
  exact ⟨(opcodeRow_selects_iff i v).2 ⟨fieldOp_of_decode h, hzero⟩, hfields⟩

/-- An illegal word that selects a row fails the field checks. -/
theorem fieldsLegal_of_illegal_selects {v : Command} {r : OpcodeRow} (hv : Illegal v) (hr : r ∈ opcodeTable)
    (h : r.selects v = true) : fieldsLegal v = false := by
  obtain ⟨i, rfl⟩ := exists_opcodeRow hr
  obtain ⟨hop, hzero⟩ := (opcodeRow_selects_iff i v).1 h
  rcases (illegal_iff v).1 hv with hun | hnz | hf
  · exact absurd (hop ▸ opcode_mem_assigned i) hun
  · exact absurd hnz hzero
  · exact hf

/-- Settles O3: a word that decodes selects the row of its command, and no other row has its opcode; an illegal word that
selects a row fails the field checks. -/
theorem decodingFollowsTheOpcodeTable : Obligations.DecodingFollowsTheOpcodeTable := by
  intro v
  cases hd : decode v with
  | ok i =>
    obtain ⟨hsel, hfields⟩ := selects_of_decode hd
    exact .inl ⟨i, rfl, filter_selects_eq_singleton (opcodeRow_mem i) hsel, hfields⟩
  | error e =>
    refine .inr ⟨⟨e, hd⟩, ?_⟩
    by_cases hsel : ∃ r ∈ opcodeTable, r.selects v = true
    · obtain ⟨r, hr, h⟩ := hsel
      exact .inr ⟨by rw [filter_selects_eq_singleton hr h]; rfl, fieldsLegal_of_illegal_selects ⟨e, hd⟩ hr h⟩
    · exact .inl (List.filter_eq_nil_iff.2 fun r hr h => hsel ⟨r, hr, h⟩)

end Sys2Proof

namespace Sys2Proof.Machine

/-- R191: in every state and MODE an illegal word leaves the port, is answered, and does nothing else. -/
theorem step_illegal {s : State} {v : Command} {rest : List HostAction} (hv : Illegal v)
    (hp : s.port = .command v :: rest) : step s = .next ((s.setPort rest).raise .illegalCommand 0#8) := by
  obtain ⟨e, he⟩ := hv
  rcases step_cases s with ⟨hp', -⟩ | ⟨_, hp', -⟩ | ⟨_, _, i, hp', hd, -⟩ | ⟨_, _, _, hp', -, hs⟩ <;>
    rw [hp] at hp' <;> cases hp'
  · rw [he] at hd; cases hd
  · exact hs

/-- Settles O4: `illegal_iff` is R79's list with items 3 to 5 folded into `fieldsLegal`, and `step_illegal` is R191. -/
theorem illegalWordsAreAnsweredIllegalCommand : Obligations.IllegalWordsAreAnsweredIllegalCommand := by
  refine fun v => ⟨?_, fun s rest hv hp => step_illegal hv hp⟩
  rw [illegal_iff, fieldsLegal_eq_false_iff]
  rfl

end Sys2Proof.Machine
end

section
/-! PROOFS of the statements of spec/40_system_config.md: RESET, the reset input, CSRR, CSRW and SELFTEST (R100 to
R106). The encodings go by one fact for all fifteen commands: the decoder and the encoder are inverse to each other. -/

namespace Sys2Proof

/-! ## The one word of a command (R71, R86) -/

/-- The decoder reads every field that the encoder writes. -/
theorem decode_encode {i : Instr} (hw : i.wellFormed = true) : decode (encode i) = .ok i := by
  cases i with
  | reset => simp [encode, decode_reset]
  | csrr csr => simp [encode, decode_csrr, csrOfNumber_csrNumber, Except.map]
  | csrw csr imm8 => simp [encode, decode_csrw, csrOfNumber_csrNumber, Except.bind, csrwOf_eq_ok.2 ⟨hw, rfl⟩]
  | selftest => simp [encode, decode_selftest]
  | clrb => simp [encode, decode_clrb]
  | pushb imm8 => simp [encode, decode_pushb]
  | stb addr imm8 => simp [encode, decode_stb]
  | ldb addr => simp [encode, decode_ldb]
  | crc off len => simp [encode, decode_crc]
  | crcv off len => simp [encode, decode_crcv]
  | ldw d imm16 => simp [encode, decode_ldw, wordRegOfNumber_wordRegNumber, Except.map]
  | rdw src => simp [encode, decode_rdw, wordRegOfNumber_wordRegNumber, Except.map]
  | pack src => simp [encode, decode_pack, wordRegOfNumber_wordRegNumber, Except.map]
  | unframe count => simp [encode, decode_unframe]
  | combine n => simp [encode, decode_combine]

theorem csrOfNumber_eq_ok {n : Byte} {csr : Csr} : csrOfNumber n = .ok csr ↔ n = csrNumber csr :=
  ⟨csrNumber_of_eq_ok, fun h => h ▸ csrOfNumber_csrNumber csr⟩

theorem wordRegOfNumber_eq_ok {n : Byte} {r : WordReg} : wordRegOfNumber n = .ok r ↔ n = wordRegNumber r :=
  ⟨wordRegNumber_of_eq_ok, fun h => h ▸ wordRegOfNumber_wordRegNumber r⟩

/-- No bit of a word is ignored: a word that decodes has the fields of its command's word. -/
theorem encode_of_decode {v : Command} {i : Instr} (h : decode v = .ok i) : encode i = v := by
  have hop := fieldOp_of_decode h
  rw [← commandWord_fields v, hop]
  cases i with
  | reset => simp_all [decode_reset hop, needZero_eq_ok, encode, Instr.opcode]
  | csrr csr => simp_all [decode_csrr hop, needZero_eq_ok, exceptMap_eq_ok, csrOfNumber_eq_ok, encode, Instr.opcode]
  | csrw csr imm8 =>
    simp_all [decode_csrw hop, needZero_eq_ok, exceptBind_eq_ok, csrwOf_eq_ok, csrOfNumber_eq_ok, encode, Instr.opcode]
  | selftest => simp_all [decode_selftest hop, needZero_eq_ok, encode, Instr.opcode]
  | clrb => simp_all [decode_clrb hop, needZero_eq_ok, encode, Instr.opcode]
  | pushb imm8 => simp_all [decode_pushb hop, needZero_eq_ok, encode, Instr.opcode]
  | stb addr imm8 => simp_all [decode_stb hop, needZero_eq_ok, encode, Instr.opcode]
  | ldb addr => simp_all [decode_ldb hop, needZero_eq_ok, encode, Instr.opcode]
  | crc off len => simp_all [decode_crc hop, needZero_eq_ok, encode, Instr.opcode]
  | crcv off len => simp_all [decode_crcv hop, needZero_eq_ok, encode, Instr.opcode]
  | ldw d imm16 =>
    simp only [decode_ldw hop, exceptMap_eq_ok, wordRegOfNumber_eq_ok] at h
    obtain ⟨_, ha, hi⟩ := h
    cases hi
    simp [encode, Instr.opcode, ha]
  | rdw src => simp_all [decode_rdw hop, needZero_eq_ok, exceptMap_eq_ok, wordRegOfNumber_eq_ok, encode, Instr.opcode]
  | pack src => simp_all [decode_pack hop, needZero_eq_ok, exceptMap_eq_ok, wordRegOfNumber_eq_ok, encode, Instr.opcode]
  | unframe count => simp_all [decode_unframe hop, needZero_eq_ok, encode, Instr.opcode]
  | combine n => simp_all [decode_combine hop, needZero_eq_ok, encode, Instr.opcode]

/-- A well-formed command has one word, the one the encoder gives. -/
theorem encodedAs_of_encode_eq {i : Instr} {v : Command} (hw : i.wellFormed = true) (hv : encode i = v) :
    EncodedAs i v :=
  fun _ => ⟨fun h => (encode_of_decode h).symm.trans hv, fun h => h ▸ hv ▸ decode_encode hw⟩

theorem encode_csrw (csr : Csr) (imm8 : Byte) :
    encode (.csrw csr imm8) = 0x03000000#32 ||| (csrNumber csr).setWidth 32 <<< 16 ||| imm8.setWidth 32 := by
  simp [encode, commandWord_eq_or]

/-- A non-zero bit in `cmd[23:0]` stands in one of the fields `fa`, `fb` and `fc` (R70). -/
theorem field_ne_zero_of_low_ne_zero {v : Command} (h : v.extractLsb' 0 24 ≠ 0) :
    fieldFa v ≠ 0 ∨ fieldFb v ≠ 0 ∨ fieldFc v ≠ 0 := by
  contrapose! h
  obtain ⟨ha, hb, hc⟩ := h
  rw [← commandWord_fields v, ha, hb, hc]
  apply BitVec.eq_of_getLsbD_eq; intro i hi
  simp [commandWord_getLsbD, hi]

end Sys2Proof

namespace Sys2Proof.Machine

/-! ## What the system commands answer -/

theorem exec_reset (s : State) : exec .reset s = .next (s.resetUnit.respond 0#8) := rfl

theorem exec_csrr (csr : Csr) (s : State) : exec (.csrr csr) s = .next (s.respond (s.csrValue csr)) := rfl

/-- CSR.STATUS reads as MODE (R26). -/
theorem exec_csrr_status {s : State} {m : Mode} (hm : s.mode = m) :
    exec (.csrr .status) s = .next (s.respond m.statusByte) :=
  hm ▸ exec_csrr .status s

/-- R104's first check: STATUS and LEN are not written, in any MODE. -/
theorem exec_csrw_readOnly {csr : Csr} {imm8 : Byte} {s : State} (h : s.cfg.write csr imm8 = none) :
    exec (.csrw csr imm8) s = .next (s.raise .illegalCommand 0#8) := by
  simp [exec, execCsrw, h]

/-- R104's second check. -/
theorem exec_csrw_locked {csr : Csr} {imm8 : Byte} {s : State} {c : ChecksumConfig}
    (h : s.cfg.write csr imm8 = some c) (hm : s.mode ≠ .unconfigured) :
    exec (.csrw csr imm8) s = .next (s.raise .configLocked 0#8) := by
  simp [exec, execCsrw, h, Mode.locked_eq_true.2 hm]

theorem exec_csrw_unconfigured {csr : Csr} {imm8 : Byte} {s : State} {c : ChecksumConfig}
    (h : s.cfg.write csr imm8 = some c) (hm : s.mode = .unconfigured) :
    exec (.csrw csr imm8) s = .next ((s.setCfg c).respond 0#8) := by
  simp [exec, execCsrw, h, Mode.locked_eq_false.2 hm]

theorem exec_selftest_locked {s : State} (hm : s.mode ≠ .unconfigured) :
    exec .selftest s = .next (s.raise .configLocked 0#8) := by
  simp [exec, execSelftest, Mode.locked_eq_true.2 hm]

/-- The data SELFTEST answers: the expected check value and the computed one (R81). -/
theorem info2_checkValue (v : Byte) : info2 CHECK_VALUE v = 0xF7#8 ++ v := rfl

/-- R106: the whole effect of a SELFTEST that is not locked, for a check that passes or fails. -/
theorem exec_selftest_unconfigured {s : State} (hm : s.mode = .unconfigured) :
    exec .selftest s = .next { s with
      table := crcTable s.cfg.poly, mode := selfTestMode (checksum s.cfg CHECK_STRING),
      responses := s.responses ++ [⟨selfTestStatus (checksum s.cfg CHECK_STRING),
        (0xF7#8 ++ checksum s.cfg CHECK_STRING).setWidth 64⟩] } := by
  simp [exec, execSelftest, Mode.locked_eq_false.2 hm, info2_checkValue, State.answer, State.setMode, State.setTable]

theorem step_reset_input {s : State} {rest : List HostAction} (hp : s.port = .reset :: rest) :
    step s = .next (s.setPort rest).resetUnit := by
  rcases step_cases s with ⟨hp', -⟩ | ⟨_, hp', hs⟩ | ⟨_, _, _, hp', -⟩ | ⟨_, _, _, hp', -⟩ <;>
    rw [hp] at hp' <;> cases hp'
  exact hs

/-- Settles O15: the one word, the values of `resetLeavesTheStatedValues`, and the lock of `exec_locked_sameCheck`. -/
theorem resetCommandRestoresTheResetState : Obligations.ResetCommandRestoresTheResetState := by
  refine ⟨encodedAs_of_encode_eq rfl (by decide),
    fun v hop h => (illegal_reset hop).2 (field_ne_zero_of_low_ne_zero h), fun s => ?effect,
    fun i s t hi hm h => (exec_locked_sameCheck hm hi h).2.1⟩
  case effect =>
    obtain ⟨-, -, -, -, -, htable, hbuf, -, hword⟩ := resetLeavesTheStatedValues
    exact ⟨_, exec_reset s, rfl, rfl, htable, hbuf, rfl, hword, rfl, rfl⟩

/-- Settles O16: CSRR answers `State.csrValue`; CSR.STATUS is the number of MODE. -/
theorem csrrReadsEachRegister : Obligations.CsrrReadsEachRegister := by
  refine ⟨?words, fun v hop h => (illegal_csrr hop).2 (by tauto), fun s => ?values⟩
  case words =>
    refine ⟨?_, ?_, ?_, ?_, ?_⟩ <;> exact encodedAs_of_encode_eq rfl (by decide)
  case values =>
    exact ⟨exec_csrr .poly s, exec_csrr .init s, exec_csrr .xorOut s, exec_csrr_status, exec_csrr_status,
      exec_csrr_status, exec_csrr .len s⟩

/-- Settles O17: the three ways of CSRW, in R104's order. -/
theorem csrwWritesOnlyAnUncheckedConfiguration : Obligations.CsrwWritesOnlyAnUncheckedConfiguration := by
  intro imm8
  refine ⟨encodedAs_of_encode_eq rfl (by simp [encode_csrw, csrNumber]),
    encodedAs_of_encode_eq rfl (by simp [encode_csrw, csrNumber]),
    encodedAs_of_encode_eq rfl (by simp [encode_csrw, csrNumber]),
    fun v hop h => (illegal_csrw hop).2 h.symm, fun s => ⟨?readOnly, ?locked, fun hm => ?write⟩⟩
  case readOnly => rintro csr (rfl | rfl) <;> exact exec_csrw_readOnly rfl
  case locked => rintro csr (rfl | rfl | rfl) hm <;> exact exec_csrw_locked rfl hm
  case write => refine ⟨?_, ?_, ?_⟩ <;> exact exec_csrw_unconfigured rfl hm

/-- Settles O18: the lock, or TABLE and MODE written and the computed check value reported. -/
theorem selftestChecksTheConfigurationOnce : Obligations.SelftestChecksTheConfigurationOnce := by
  refine ⟨encodedAs_of_encode_eq rfl (by decide),
    fun v hop h => (illegal_selftest hop).2 (field_ne_zero_of_low_ne_zero h),
    fun s => ⟨exec_selftest_locked, fun hm => ?_⟩⟩
  rw [exec_selftest_unconfigured hm]
  refine ⟨crcTable s.cfg.poly, checksum s.cfg CHECK_STRING, rfl, crcTable_getElem s.cfg.poly,
    fun hv => ?pass, fun hv => ?fail⟩
  case pass => simp only [selfTestMode, selfTestStatus, CHECK_VALUE, hv, if_true]
  case fail => simp only [selfTestMode, selfTestStatus, CHECK_VALUE, hv, if_false]

/-- Settles O7: the reset input and RESET both end in `State.resetUnit`; only RESET answers. -/
theorem resetInputResetsWithoutAResponse : Obligations.ResetInputResetsWithoutAResponse :=
  fun s rest hp => ⟨_, _, step_reset_input hp, exec_reset { s with port := rest }, rfl, rfl, rfl⟩

end Sys2Proof.Machine
end

section
/-! PROOFS of the statements of spec/41_buffer.md for single commands: PUSHB, STB and LDB (R121 to R123). PUSHB and STB
share one fact about the buffer: a write to an existing address succeeds and changes that byte alone. -/

namespace Sys2Proof

theorem encode_pushb (imm8 : Byte) : encode (.pushb imm8) = 0x11000000#32 ||| imm8.setWidth 32 := by
  simp [encode, commandWord_eq_or]

theorem encode_stb (addr imm8 : Byte) :
    encode (.stb addr imm8) = 0x12000000#32 ||| (addr.setWidth 32 <<< 8) ||| imm8.setWidth 32 := by
  simp [encode, commandWord_eq_or]

theorem encode_ldb (addr : Byte) : encode (.ldb addr) = 0x13000000#32 ||| addr.setWidth 32 := by
  simp [encode, commandWord_eq_or]

end Sys2Proof

namespace Sys2Proof.Machine

/-- A write to an address of BUF succeeds, puts the byte there and leaves every other address as it was (R50, R54). -/
theorem Memory.exists_write {m : Memory} {a : Nat} (b : Byte) (ha : a < BUF_BYTES) (hm : Memory.wf m) :
    ∃ m', m.write a b = some m' ∧ m'.read a = some b ∧ ∀ a', a' ≠ a → m'.read a' = m.read a' := by
  have hw := Memory.write_of_lt m b ha
  have hread := Memory.read_write hm.1 hw
  exact ⟨_, hw, by rw [hread, if_pos rfl], fun a' ne => by rw [hread, if_neg ne]⟩

/-- Below BUF_BYTES, adding one to LEN does not wrap (R121). -/
theorem len_add_one_toNat {n : Byte} (h : n.toNat < BUF_BYTES) : (n + 1).toNat = n.toNat + 1 := by
  have hlt : n.toNat < 12 := h
  bv_omega

/-! ## What the buffer commands answer -/

theorem exec_pushb_full (imm8 : Byte) {s : State} (h : s.len.toNat = BUF_BYTES) :
    exec (.pushb imm8) s = .next (s.raise .bufferOverflow s.len) :=
  if_pos h

theorem exec_pushb_of_write {imm8 : Byte} {s : State} {m : Memory} (h : s.len.toNat < BUF_BYTES)
    (hw : s.buf.write s.len.toNat imm8 = some m) :
    exec (.pushb imm8) s = .next (((s.setBuf m).setLen (s.len + 1)).respond (s.len + 1)) := by
  simp only [exec, execPushb, hw, if_neg h.ne]

theorem exec_stb_outOfRange {addr : Byte} (imm8 : Byte) {s : State} (h : s.len.toNat ≤ addr.toNat) :
    exec (.stb addr imm8) s = .next (s.raise .addressRange s.len) :=
  if_pos h

theorem exec_stb_of_write {addr imm8 : Byte} {s : State} {m : Memory} (h : addr.toNat < s.len.toNat)
    (hw : s.buf.write addr.toNat imm8 = some m) :
    exec (.stb addr imm8) s = .next ((s.setBuf m).respond 0#8) := by
  simp only [exec, execStb, hw, if_neg h.not_ge]

theorem exec_ldb_outOfRange {addr : Byte} {s : State} (h : s.len.toNat ≤ addr.toNat) :
    exec (.ldb addr) s = .next (s.raise .addressRange s.len) :=
  if_pos h

theorem exec_ldb_of_read {addr b : Byte} {s : State} (h : addr.toNat < s.len.toNat)
    (hr : s.buf.read addr.toNat = some b) : exec (.ldb addr) s = .next (s.respond b) := by
  simp only [exec, execLdb, hr, if_neg h.not_ge]

/-- Settles O25: full, or below BUF_BYTES one write at LEN and LEN plus one. -/
theorem pushbAppendsOneByte : Obligations.PushbAppendsOneByte := by
  intro imm8
  refine ⟨encodedAs_of_encode_eq rfl (encode_pushb imm8), fun v hop => (illegal_pushb hop).2,
    fun s => ⟨exec_pushb_full imm8, fun hlt hwf => ?append⟩⟩
  case append =>
    obtain ⟨m, hw, hbyte, hrest⟩ := Memory.exists_write imm8 hlt hwf
    exact ⟨m, exec_pushb_of_write hlt hw, len_add_one_toNat hlt, hbyte, hrest⟩

/-- Settles O26: out of range, or one write at an address below LEN, which is an address of BUF. -/
theorem stbOverwritesAValidByte : Obligations.StbOverwritesAValidByte := by
  intro addr imm8
  refine ⟨encodedAs_of_encode_eq rfl (encode_stb addr imm8), fun v hop => (illegal_stb hop).2,
    fun s => ⟨exec_stb_outOfRange imm8, fun hlt hlen hwf => ?overwrite⟩⟩
  case overwrite =>
    obtain ⟨m, hw, hbyte, hrest⟩ := Memory.exists_write imm8 (hlt.trans_le hlen) hwf
    exact ⟨m, exec_stb_of_write hlt hw, hbyte, hrest⟩

/-- Settles O27: out of range, or the byte at an address below LEN, which is an address of BUF. -/
theorem ldbReadsAValidByte : Obligations.LdbReadsAValidByte := by
  intro addr
  refine ⟨encodedAs_of_encode_eq rfl (encode_ldb addr), fun v hop => (illegal_ldb hop).2,
    fun s => ⟨exec_ldb_outOfRange, fun hlt hlen => ?load⟩⟩
  case load =>
    have hr := Memory.read_of_lt s.buf (hlt.trans_le hlen)
    exact ⟨_, hr, exec_ldb_of_read hlt hr⟩

end Sys2Proof.Machine
end

section
/-! PROOFS of the statements of spec/42_checksum.md: the bit step (R141) and the commands CRC and CRCV (R150, R151). The
gate (R194) is one fact for all gated commands; the bytes of a span inside BUF are one fact for both commands. -/

namespace Sys2Proof

theorem encode_crc (off len : Byte) :
    encode (.crc off len) = 0x20000000#32 ||| (off.setWidth 32 <<< 8) ||| len.setWidth 32 := by
  simp [encode, commandWord_eq_or]

theorem encode_crcv (off len : Byte) :
    encode (.crcv off len) = 0x21000000#32 ||| (off.setWidth 32 <<< 8) ||| len.setWidth 32 := by
  simp [encode, commandWord_eq_or]

end Sys2Proof

namespace Sys2Proof.Machine

/-! ## The bit step on numbers (R141) -/

/-- The shift drops bit 7, which is a reduction mod 256. -/
theorem shiftLeft_one_toNat (c : Byte) : (c <<< 1).toNat = 2 * c.toNat % 256 := by
  rw [BitVec.toNat_shiftLeft, Nat.shiftLeft_eq, Nat.mul_comm]

theorem crcBitStep_of_le {c : Byte} (poly : Byte) (h : 128 ≤ c.toNat) : crcBitStep poly c = (c <<< 1) ^^^ poly :=
  if_pos (BitVec.msb_eq_true_iff_two_mul_ge.2 (by omega))

theorem crcBitStep_of_lt {c : Byte} (poly : Byte) (h : c.toNat < 128) : crcBitStep poly c = c <<< 1 :=
  if_neg (Bool.eq_false_iff.1 (BitVec.msb_eq_false_iff_two_mul_lt.2 (by omega)))

/-- Settles O30: the bit shifted out is whether the number reaches 128. -/
theorem bitStepShiftsAndFoldsTheTopBit : Obligations.BitStepShiftsAndFoldsTheTopBit := by
  refine fun poly c => ⟨fun h => ?folded, fun h => ?shifted⟩
  case folded => rw [crcBitStep_of_le poly h, BitVec.toNat_xor, shiftLeft_one_toNat]
  case shifted => rw [crcBitStep_of_lt poly h, shiftLeft_one_toNat]

/-! ## The bytes of a span -/

/-- A span inside BUF can be read, and its bytes are those at its addresses, in order (R13, R50). -/
theorem Memory.exists_readSpan (m : Memory) {addr n : Nat} (h : addr + n ≤ BUF_BYTES) :
    ∃ bytes, m.readSpan addr n = some bytes ∧ bytes.length = n ∧ ∀ i < n, m.read (addr + i) = bytes[i]? := by
  obtain ⟨bytes, hspan⟩ := Memory.readSpan_isSome m (.inr h)
  obtain ⟨hlen, hbytes⟩ := Memory.readSpan_eq_some.1 hspan
  refine ⟨bytes, hspan, hlen, fun i hi => ?_⟩
  have hi' : i < bytes.length := hlen.symm ▸ hi
  rw [hbytes i hi', List.getElem?_eq_getElem hi']

/-! ## What the checksum commands answer -/

/-- R194: a gated command ends with the gate's error before it looks at its operands. -/
theorem exec_gated {i : Instr} {s : State} {st : Status} (hi : i.gated = true) (hg : s.mode.gate = some st) :
    exec i s = .next (s.raise st 0#8) := by
  cases i with
  | crc off len => simp only [exec, execCrc, hg]
  | crcv off len => simp only [exec, execCrcv, hg]
  | pack src => simp only [exec, execPack, hg]
  | unframe count => simp only [exec, execUnframe, hg]
  | combine n => simp only [exec, execCombine, hg]
  | _ => cases hi

theorem exec_gated_unconfigured {i : Instr} {s : State} (hi : i.gated = true) (hm : s.mode = .unconfigured) :
    exec i s = .next (s.raise .notConfigured 0#8) :=
  exec_gated hi (Mode.gate_eq_some.2 (.inl ⟨hm, rfl⟩))

theorem exec_gated_failed {i : Instr} {s : State} (hi : i.gated = true) (hm : s.mode = .failed) :
    exec i s = .next (s.raise .configInvalid 0#8) :=
  exec_gated hi (Mode.gate_eq_some.2 (.inr ⟨hm, rfl⟩))

theorem exec_crc_outOfRange {off len : Byte} {s : State} (hm : s.mode = .ready)
    (h : s.len.toNat < off.toNat + len.toNat) : exec (.crc off len) s = .next (s.raise .addressRange s.len) := by
  simp only [exec, execCrc, Mode.gate_eq_none.2 hm, if_pos h]

theorem exec_crc_of_readSpan {off len : Byte} {s : State} {bytes : List Byte} (hm : s.mode = .ready)
    (h : off.toNat + len.toNat ≤ s.len.toNat) (hspan : s.buf.readSpan off.toNat len.toNat = some bytes) :
    exec (.crc off len) s = .next (s.respond (checksum s.cfg bytes)) := by
  simp only [exec, execCrc, Mode.gate_eq_none.2 hm, if_neg h.not_gt, hspan]

theorem exec_crcv_outOfRange {off len : Byte} {s : State} (hm : s.mode = .ready)
    (h : s.len.toNat < off.toNat + len.toNat + 1) : exec (.crcv off len) s = .next (s.raise .addressRange s.len) := by
  simp only [exec, execCrcv, Mode.gate_eq_none.2 hm, if_pos h]

/-- R151's comparison: the checksum of the span against the byte after it. -/
theorem exec_crcv_of_readSpan {off len actual : Byte} {s : State} {bytes : List Byte} (hm : s.mode = .ready)
    (h : off.toNat + len.toNat + 1 ≤ s.len.toNat) (hspan : s.buf.readSpan off.toNat len.toNat = some bytes)
    (hactual : s.buf.read (off.toNat + len.toNat) = some actual) :
    exec (.crcv off len) s =
      if checksum s.cfg bytes = actual then .next (s.respond (checksum s.cfg bytes))
      else .next (s.raise .checksumMismatch (info3 0x00#8 (checksum s.cfg bytes) actual)) := by
  simp only [exec, execCrcv, Mode.gate_eq_none.2 hm, if_neg h.not_gt, hspan, hactual]

/-- Settles O36: the gate, out of range, or the checksum of a span below LEN, which is a span of BUF. -/
theorem crcAnswersTheChecksumOfASpan : Obligations.CrcAnswersTheChecksumOfASpan := by
  intro off len
  refine ⟨encodedAs_of_encode_eq rfl (encode_crc off len), fun v hop => (illegal_crc hop).2,
    fun s => ⟨exec_gated_unconfigured rfl, exec_gated_failed rfl, exec_crc_outOfRange, fun hm hle hlen => ?answer⟩⟩
  case answer =>
    obtain ⟨bytes, hspan, hlength, hbytes⟩ := s.buf.exists_readSpan (hle.trans hlen)
    exact ⟨bytes, hlength, hbytes, exec_crc_of_readSpan hm hle hspan⟩

/-- Settles O37: the gate, out of range, or the span and the byte after it, all below LEN and so in BUF. -/
theorem crcvComparesTheByteAfterTheSpan : Obligations.CrcvComparesTheByteAfterTheSpan := by
  intro off len
  refine ⟨encodedAs_of_encode_eq rfl (encode_crcv off len), fun v hop => (illegal_crcv hop).2,
    fun s => ⟨exec_gated_unconfigured rfl, exec_gated_failed rfl, exec_crcv_outOfRange, fun hm hle hlen => ?compare⟩⟩
  case compare =>
    have hin : off.toNat + len.toNat < BUF_BYTES := hle.trans hlen
    obtain ⟨bytes, hspan, hlength, hbytes⟩ := s.buf.exists_readSpan hin.le
    have hactual := Memory.read_of_lt s.buf hin
    have hexec := exec_crcv_of_readSpan hm hle hspan hactual
    exact ⟨bytes, _, hlength, hbytes, hactual, fun heq => hexec.trans (if_pos heq), fun hne => hexec.trans (if_neg hne)⟩

end Sys2Proof.Machine
end

section
/-! PROOFS of the statements of spec/43_framer.md: `combine_words` (R164) and the commands LDW, RDW, PACK, UNFRAME and
COMBINE (R170 to R174). One more word is one append to the joined words; `combine_words` and COMBINE both go by it. -/

namespace Sys2Proof

/-! ## The words of the commands (R71, R86) -/

theorem wordRegNumber_setWidth (r : WordReg) : (wordRegNumber r).setWidth 32 = BitVec.ofNat 32 r.val := by
  revert r; decide

/-- The two byte fields of LDW are its immediate (R77). -/
theorem imm16_eq_or (v : Word) :
    (highByte v).setWidth 32 <<< 8 ||| (lowByte v).setWidth 32 = v.setWidth 32 := by
  rw [← BitVec.setWidth_append_eq_shiftLeft_setWidth_or, highByte_append_lowByte]

theorem encode_ldw (d : WordReg) (imm16 : Word) :
    encode (.ldw d imm16) = 0x30000000#32 ||| (BitVec.ofNat 32 d.val <<< 16) ||| imm16.setWidth 32 := by
  rw [encode, commandWord_eq_or, wordRegNumber_setWidth, BitVec.or_assoc, imm16_eq_or]
  rfl

theorem encode_rdw (src : WordReg) : encode (.rdw src) = 0x31000000#32 ||| (BitVec.ofNat 32 src.val <<< 16) := by
  simp [encode, commandWord_eq_or, wordRegNumber_setWidth]

theorem encode_pack (src : WordReg) : encode (.pack src) = 0x32000000#32 ||| (BitVec.ofNat 32 src.val <<< 16) := by
  simp [encode, commandWord_eq_or, wordRegNumber_setWidth]

theorem encode_unframe (count : Byte) : encode (.unframe count) = 0x33000000#32 ||| count.setWidth 32 := by
  simp [encode, commandWord_eq_or]

theorem encode_combine (n : Byte) : encode (.combine n) = 0x34000000#32 ||| n.setWidth 32 := by
  simp [encode, commandWord_eq_or]

end Sys2Proof

namespace Sys2Proof.Machine

/-! ## Joined words (R164) -/

theorem joinWords_concat (words : List Word) (x : Word) :
    joinWords (words ++ [x]) = (joinWords words <<< 16) ||| x.setWidth 64 :=
  List.foldl_concat _ _ _ _

/-- Adding a word appends it below the words joined so far. -/
theorem joinWords_concat_eq_append (words : List Word) (x : Word) :
    joinWords (words ++ [x]) = (joinWords words ++ x).setWidth 64 := by
  rw [joinWords_concat, BitVec.setWidth_append_eq_shiftLeft_setWidth_or, BitVec.setWidth_eq]

theorem joinWords_singleton (v : Word) : joinWords [v] = v.setWidth 64 := by
  simp [joinWords]

theorem joinWords_toNat_lt (words : List Word) : (joinWords words).toNat < 2 ^ (16 * words.length) := by
  induction words using List.reverseRecOn with
  | nil => decide
  | append_singleton words x ih =>
    calc (joinWords (words ++ [x])).toNat
        ≤ (joinWords words ++ x).toNat := by
          rw [joinWords_concat_eq_append, BitVec.toNat_setWidth]; exact Nat.mod_le _ _
      _ = (joinWords words).toNat * 2 ^ 16 + x.toNat := by
          rw [BitVec.toNat_append, ← Nat.shiftLeft_add_eq_or_of_lt x.isLt, Nat.shiftLeft_eq]
      _ < 2 ^ (16 * (words ++ [x]).length) := by
          rw [List.length_append, List.length_singleton, Nat.mul_succ, Nat.pow_add]
          have := x.isLt
          omega

/-- Four words fill the 64 bits: up to there no word is shifted out, and word `j` stands `length - 1 - j` words up. -/
theorem joinWords_extractLsb' {words : List Word} (hlen : words.length ≤ 4) {j : Nat} (h : j < words.length) :
    (joinWords words).extractLsb' (16 * (words.length - 1 - j)) 16 = words[j] := by
  induction words using List.reverseRecOn with
  | nil => cases h
  | append_singleton words x ih =>
    rw [List.length_append, List.length_singleton] at hlen h
    rw [joinWords_concat_eq_append, BitVec.extractLsb'_setWidth_of_le (by simp; omega), List.length_append,
      List.length_singleton, Nat.add_sub_cancel]
    rcases Nat.lt_succ_iff_lt_or_eq.1 h with hj | rfl
    · rw [BitVec.extractLsb'_append_eq_of_le (by omega), List.getElem_append_left hj, ← ih (by omega) hj]
      congr 1
      omega
    · rw [Nat.sub_self, Nat.mul_zero, BitVec.extractLsb'_append_eq_right, List.getElem_concat_length rfl]

/-- All that `combine_words` can give. -/
theorem combineWords_eq_some {words : List Word} {value : Data} (h : combineWords words = some value) :
    words.length ≤ 4 ∧ value = joinWords words := by
  unfold combineWords at h
  split at h <;> cases h
  rename_i hlen
  exact ⟨hlen.2, rfl⟩

theorem combineWords_eq_none {words : List Word} (h : words.length = 0 ∨ 4 < words.length) :
    combineWords words = none :=
  if_neg (by omega)

/-- Settles O40: one more word is one append, so the bound and the positions go by induction from the last word. -/
theorem combineWordsIsBigEndian : Obligations.CombineWordsIsBigEndian := by
  refine ⟨fun v => ?single, fun words x h1 h3 => ?concat, fun _ => combineWords_eq_none, fun words value h => ?place⟩
  case single => rw [combineWords_of_length (by simp) (by simp), joinWords_singleton]
  case concat =>
    refine ⟨_, combineWords_of_length h1 (by omega), ?_⟩
    rw [combineWords_of_length (by simp) (by simpa [Nat.lt_succ_iff] using h3), joinWords_concat]
  case place =>
    obtain ⟨hlen, rfl⟩ := combineWords_eq_some h
    exact ⟨joinWords_toNat_lt words, fun _ hj => joinWords_extractLsb' hlen hj⟩

/-! ## LDW and RDW -/

theorem exec_ldw (d : WordReg) (imm16 : Word) (s : State) :
    exec (.ldw d imm16) s = .next ((s.setWord d imm16).respond 0#8) := rfl

theorem exec_rdw (src : WordReg) (s : State) : exec (.rdw src) s = .next (s.respond (s.word src)) := rfl

/-- Settles O41: a register other than the one set keeps its value. -/
theorem ldwWritesOneRegister : Obligations.LdwWritesOneRegister := by
  intro d imm16
  refine ⟨encodedAs_of_encode_eq rfl (encode_ldw d imm16), fun v hop => (illegal_ldw hop).2,
    fun s => ⟨_, exec_ldw d imm16 s, Vector.getElem_set_self d.isLt, fun r hr => ?other⟩⟩
  case other => exact Vector.getElem_set_ne d.isLt r.isLt (Fin.val_ne_of_ne hr.symm)

/-- Settles O42: RDW answers the register and is no more than an answer. -/
theorem rdwReadsOneRegister : Obligations.RdwReadsOneRegister :=
  fun src => ⟨encodedAs_of_encode_eq rfl (encode_rdw src), fun v hop h => (illegal_rdw hop).2 (by tauto),
    fun s => exec_rdw src s⟩

/-! ## PACK -/

/-- Writing a span inside BUF succeeds, puts its bytes at its addresses and leaves every other address as it was. -/
theorem Memory.exists_writeSpan {m : Memory} {addr : Nat} {bytes : List Byte} (h : addr + bytes.length ≤ BUF_BYTES)
    (hm : Memory.wf m) :
    ∃ m', m.writeSpan addr bytes = some m' ∧ (∀ i (hi : i < bytes.length), m'.read (addr + i) = some bytes[i]) ∧
      ∀ a, a < addr ∨ addr + bytes.length ≤ a → m'.read a = m.read a := by
  obtain ⟨m', hw⟩ := Memory.writeSpan_isSome m h
  have hread := (Memory.read_writeSpan hm hw).2
  refine ⟨m', hw, fun i hi => ?inside, fun a ha => ?outside⟩
  case inside =>
    rw [hread, dif_pos (by omega)]
    simp only [Nat.add_sub_cancel_left]
  case outside => rw [hread, dif_neg (by omega)]

/-- Adding three to LEN does not wrap while the frame fits (R172). -/
theorem len_add_three_toNat {n : Byte} (h : n.toNat + 3 ≤ BUF_BYTES) : (n + 3).toNat = n.toNat + 3 := by
  have hle : n.toNat + 3 ≤ 12 := h
  bv_omega

theorem exec_pack_overflow (src : WordReg) {s : State} (hm : s.mode = .ready) (h : BUF_BYTES < s.len.toNat + 3) :
    exec (.pack src) s = .next (s.raise .bufferOverflow s.len) := by
  simp only [exec, execPack, Mode.gate_eq_none.2 hm, if_pos h]

theorem exec_pack_of_writeSpan {src : WordReg} {s : State} {m : Memory} (hm : s.mode = .ready)
    (h : s.len.toNat + 3 ≤ BUF_BYTES) (hw : s.buf.writeSpan s.len.toNat (packWord s.cfg (s.word src)) = some m) :
    exec (.pack src) s = .next (((s.setBuf m).setLen (s.len + 3)).respond
      (frameBits (highByte (s.word src)) (lowByte (s.word src)) (frameChecksum s.cfg (s.word src)))) := by
  simp only [exec, execPack, Mode.gate_eq_none.2 hm, if_neg h.not_gt, hw]

/-- Settles O43: the gate, overflow, or the three bytes of `pack_word` written as one span at LEN. -/
theorem packAppendsTheFrame : Obligations.PackAppendsTheFrame := by
  intro src
  refine ⟨encodedAs_of_encode_eq rfl (encode_pack src), fun v hop h => (illegal_pack hop).2 (by tauto),
    fun s => ⟨exec_gated_unconfigured rfl, exec_gated_failed rfl, exec_pack_overflow src, fun hm hle hwf => ?append⟩⟩
  case append =>
    have hfit : s.len.toNat + (packWord s.cfg (s.word src)).length ≤ BUF_BYTES := hle
    obtain ⟨m, hw, hbytes, hrest⟩ := Memory.exists_writeSpan hfit hwf
    rw [packWord_length] at hrest
    have hin {i : Nat} (hi : i < 3) : i < (packWord s.cfg (s.word src)).length := hi
    exact ⟨m, _, _, _, rfl, rfl, rfl, exec_pack_of_writeSpan hm hle hw, len_add_three_toNat hle,
      hbytes 0 (hin (by decide)), hbytes 1 (hin (by decide)), hbytes 2 (hin (by decide)), hrest⟩

/-! ## UNFRAME -/

theorem exec_unframe_countRange {count : Byte} {s : State} (hm : s.mode = .ready) (h : NW < count.toNat) :
    exec (.unframe count) s = .next (s.raise .countRange (BitVec.ofNat 8 NW)) := by
  simp only [exec, execUnframe, Mode.gate_eq_none.2 hm, if_pos h]

theorem exec_unframe_lengthMismatch {count : Byte} {s : State} (hm : s.mode = .ready) (hc : count.toNat ≤ NW)
    (h : s.len.toNat ≠ 3 * count.toNat) :
    exec (.unframe count) s = .next (s.raise .lengthMismatch (info2 count s.len)) := by
  simp only [exec, execUnframe, Mode.gate_eq_none.2 hm, if_neg hc.not_gt, if_pos h]

section
variable {count : Byte} {s : State} {bytes : List Byte} (hm : s.mode = .ready) (hc : count.toNat ≤ NW)
  (hlen : s.len.toNat = 3 * count.toNat) (hspan : s.buf.readSpan 0 s.len.toNat = some bytes)
include hm hc hlen hspan

/-- Past its checks, UNFRAME reports the mismatch that `unframe` finds in the bytes of the buffer (R173). -/
theorem exec_unframe_checksumMismatch {i : Nat} {expected actual : Byte}
    (h : unframe s.cfg bytes count.toNat = .error (.checksumMismatch i expected actual)) :
    exec (.unframe count) s =
      .next (s.raise .checksumMismatch (info3 (BitVec.ofNat 8 i) expected actual)) := by
  simp only [exec, execUnframe, Mode.gate_eq_none.2 hm, if_neg hc.not_gt, if_neg (not_not.2 hlen), hspan, h,
    unframeErrorState]

/-- Past its checks, UNFRAME writes the words that `unframe` gives for the bytes of the buffer (R173). -/
theorem exec_unframe_ok {words : List Word} (h : unframe s.cfg bytes count.toNat = .ok words) :
    exec (.unframe count) s = .next ((s.setWords (writeWords s.w 0 words)).respond count) := by
  simp only [exec, execUnframe, Mode.gate_eq_none.2 hm, if_neg hc.not_gt, if_neg (not_not.2 hlen), hspan, h]

end

/-- `unframe` gives one word per group (R162). -/
theorem length_of_unframe_eq_ok {cfg : ChecksumConfig} {bytes : List Byte} {count : Nat} {words : List Word}
    (h : unframe cfg bytes count = .ok words) : words.length = count := by
  by_cases hlen : bytes.length = 3 * count
  · rw [unframe_of_length_eq hlen] at h
    rcases unframeGroups_cases cfg 0 hlen with ⟨ws, hok, hws⟩ | ⟨_, _, _, herr, -⟩
    · rw [hok] at h; cases h; exact hws
    · rw [herr] at h; cases h
  · rw [unframe_of_length_ne hlen] at h; cases h

/-- A buffer of whole groups is no length mismatch (R162). -/
theorem unframe_ne_lengthMismatch (cfg : ChecksumConfig) {bytes : List Byte} {count : Nat}
    (hlen : bytes.length = 3 * count) (length count' : Nat) :
    unframe cfg bytes count ≠ .error (.lengthMismatch length count') := by
  rw [unframe_of_length_eq hlen]
  rcases unframeGroups_cases cfg 0 hlen with ⟨_, hok, -⟩ | ⟨_, _, _, herr, -⟩
  · rw [hok]; simp
  · rw [herr]; simp

/-- The registers below the number of words hold them. -/
theorem writeWords_zero_of_lt (v : Vector Word NW) {words : List Word} (r : WordReg) (h : r.val < words.length) :
    words[r.val]? = some (writeWords v 0 words)[r.val] := by
  rw [writeWords_getElem, dif_pos (by omega), List.getElem?_eq_getElem h]
  rfl

/-- The registers from the number of words on keep their values. -/
theorem writeWords_zero_of_le (v : Vector Word NW) {words : List Word} (r : WordReg) (h : words.length ≤ r.val) :
    (writeWords v 0 words)[r.val] = v[r.val] := by
  rw [writeWords_getElem, dif_neg (by omega)]

/-- Settles O44: the gate, the count, the length, or `unframe` on the buffer's bytes, which are whole groups. -/
theorem unframeWritesAllWordsOrNone : Obligations.UnframeWritesAllWordsOrNone := by
  intro count
  refine ⟨encodedAs_of_encode_eq rfl (encode_unframe count), fun v hop => (illegal_unframe hop).2,
    fun s => ⟨exec_gated_unconfigured rfl, exec_gated_failed rfl, exec_unframe_countRange,
      exec_unframe_lengthMismatch, fun hm hc hlen => ?groups⟩⟩
  case groups =>
    have hin : 0 + s.len.toNat ≤ BUF_BYTES := by
      rw [Nat.zero_add, hlen]; exact Nat.mul_le_mul_left 3 hc
    obtain ⟨bytes, hspan, hlength, hbytes⟩ := s.buf.exists_readSpan hin
    refine ⟨bytes, hlength, fun i hi => ?bytes, fun _ _ _ => exec_unframe_checksumMismatch hm hc hlen hspan,
      fun words hok => ?words, unframe_ne_lengthMismatch s.cfg (hlength.trans hlen)⟩
    case bytes => rw [← hbytes i hi, Nat.zero_add]
    case words =>
      have hwords := length_of_unframe_eq_ok hok
      exact ⟨_, exec_unframe_ok hm hc hlen hspan hok, fun r hr => writeWords_zero_of_lt s.w r (hwords ▸ hr),
        fun r hr => writeWords_zero_of_le s.w r (hwords ▸ hr)⟩

/-! ## COMBINE -/

/-- One register more is one word more, appended. -/
theorem joinWords_firstWords_succ {s : State} {n k : Nat} {acc : BitVec k} (hn : n < NW)
    (h : joinWords (s.firstWords n) = acc.setWidth 64) :
    joinWords (s.firstWords (n + 1)) = (acc ++ s.w[n]).setWidth 64 := by
  have hsucc : s.firstWords (n + 1) = s.firstWords n ++ [s.w[n]] :=
    List.take_succ_eq_append_getElem (by simpa using hn)
  rw [hsucc, joinWords_concat, h, BitVec.setWidth_append_eq_shiftLeft_setWidth_or]

theorem joinWords_firstWords_one (s : State) : joinWords (s.firstWords 1) = s.w[0].setWidth 64 := by
  rw [joinWords_firstWords_succ (n := 0) (acc := 0#0) (by decide) rfl, BitVec.zero_width_append]
  rfl

theorem exec_combine_countRange {n : Byte} {s : State} (hm : s.mode = .ready) (h : n = 0#8 ∨ 4 < n.toNat) :
    exec (.combine n) s = .next (s.raise .countRange 4#8) := by
  have hn : n.toNat = 0 ∨ 4 < n.toNat := h.imp_left (congrArg BitVec.toNat)
  simp only [exec, execCombine, Mode.gate_eq_none.2 hm, if_pos hn]

theorem exec_combine_of_count {n : Byte} {s : State} (hm : s.mode = .ready) (h1 : 1 ≤ n.toNat) (h4 : n.toNat ≤ 4) :
    exec (.combine n) s = .next (s.respond (joinWords (s.firstWords n.toNat))) := by
  have hlen : (s.firstWords n.toNat).length = n.toNat := firstWords_length s h4
  have hn : ¬ (n.toNat = 0 ∨ 4 < n.toNat) := by omega
  simp only [exec, execCombine, Mode.gate_eq_none.2 hm, if_neg hn,
    combineWords_of_length (hlen.symm ▸ h1) (hlen.symm ▸ h4)]

/-- COMBINE answers the first `n` registers joined, for each way to write them as one number. -/
theorem exec_combine_of_join {n : Byte} {s : State} {k : Nat} {value : BitVec k} (hm : s.mode = .ready)
    (h1 : 1 ≤ n.toNat) (h4 : n.toNat ≤ 4) (h : joinWords (s.firstWords n.toNat) = value.setWidth 64) :
    exec (.combine n) s = .next (s.respond value) := by
  rw [exec_combine_of_count hm h1 h4, h, State.respond, State.respond, BitVec.setWidth_eq]

/-- Settles O45: the gate, the count, or the first words joined, each count by one append to the one before. -/
theorem combineJoinsTheFirstWords : Obligations.CombineJoinsTheFirstWords := by
  refine ⟨fun n => encodedAs_of_encode_eq rfl (encode_combine n), fun v hop => (illegal_combine hop).2,
    fun s => ⟨fun _ => exec_gated_unconfigured rfl, fun _ => exec_gated_failed rfl,
      fun _ => exec_combine_countRange, fun hm => ?joined⟩⟩
  case joined =>
    have h1 := joinWords_firstWords_one s
    have h2 := joinWords_firstWords_succ (by decide) h1
    have h3 := joinWords_firstWords_succ (by decide) h2
    have h4 := joinWords_firstWords_succ (by decide) h3
    exact ⟨exec_combine_of_join hm (by decide) (by decide) h1, exec_combine_of_join hm (by decide) (by decide) h2,
      exec_combine_of_join hm (by decide) (by decide) h3, exec_combine_of_join hm (by decide) (by decide) h4⟩

end Sys2Proof.Machine
end

section
/-! PROOFS of the statements of spec/60_exceptions.md: the gate (R194), and what an error response leaves unchanged
(R196, R197). Both go by one fact about every command: with what status it answers, and in which state. -/

namespace Sys2Proof.Machine

/-! ## How a command can be answered -/

/-- An error that a command's own checks raise: neither the gate's (R194) nor SelfTestFail, the one that changes state
(R197). -/
def Status.ofOwnCheck : Status → Bool
  | .illegalCommand | .configLocked | .addressRange | .bufferOverflow | .countRange | .lengthMismatch
  | .checksumMismatch => true
  | .ok | .notConfigured | .configInvalid | .selfTestFail => false

/-- What a failed self-check leaves behind: TABLE and MODE written, and the answer (R106, R197). -/
def State.failSelfTest (s : State) (d : Data) : State :=
  ((s.setTable (crcTable s.cfg.poly)).setMode .failed).answer .selfTestFail d

theorem State.failSelfTest_eq (s : State) (d : Data) :
    s.failSelfTest d = { s with
      table := crcTable s.cfg.poly, mode := .failed, responses := s.responses ++ [⟨.selfTestFail, d⟩] } := by
  simp only [State.failSelfTest, State.answer, State.setMode, State.setTable]

/-- The four ways in which a command leads from `s` to a next state `t`; only OK leaves open what was written. -/
inductive Answered (i : Instr) (s t : State) : Prop
  /-- The command succeeds. -/
  | ok (d : Data) (hr : t.responses = s.responses ++ [⟨.ok, d⟩])
  /-- The gate refuses it (R194). -/
  | gate (st : Status) (hi : i.gated = true) (hg : s.mode.gate = some st) (ht : t = s.answer st 0#64)
  /-- A check of its own fails (R195). -/
  | check (st : Status) (d : Data) (hst : st.ofOwnCheck = true) (ht : t = s.answer st d)
  /-- It is SELFTEST, and the self-check fails (R197). -/
  | selfTestFail (d : Data) (hi : i = .selftest) (ht : t = s.failSelfTest d)

/-- An unlocked SELFTEST ends with OK or with SelfTestFail, and in the second case MODE is FAILED (R106). -/
theorem selfTest_answered {s t : State} {d : Data} (v : Byte)
    (ht : t = ((s.setTable (crcTable s.cfg.poly)).setMode (selfTestMode v)).answer (selfTestStatus v) d) :
    Answered .selftest s t := by
  unfold selfTestMode selfTestStatus at ht
  split at ht
  · exact .ok d (by rw [ht, State.answer_responses, State.setMode_responses, State.setTable_responses])
  · exact .selfTestFail d rfl ht

/-- Every command that completes is answered in one of the four ways. -/
theorem exec_answered {i : Instr} {s t : State} (h : exec i s = .next t) : Answered i s t := by
  cases i with
  | reset => cases h; exact .ok _ rfl
  | csrr csr => cases h; exact .ok _ rfl
  | csrw csr v =>
    rcases execCsrw_next h with ⟨-, rfl⟩ | ⟨_, -, -, rfl⟩ | ⟨_, -, -, rfl⟩
    · exact .check _ _ rfl rfl
    · exact .check _ _ rfl rfl
    · exact .ok _ rfl
  | selftest =>
    rcases execSelftest_next h with ⟨-, rfl⟩ | ⟨-, ht⟩
    · exact .check _ _ rfl rfl
    · exact selfTest_answered _ ht
  | clrb => cases h; exact .ok _ rfl
  | pushb v =>
    rcases execPushb_next h with ⟨-, rfl⟩ | ⟨_, -, -, rfl⟩
    · exact .check _ _ rfl rfl
    · exact .ok _ rfl
  | stb a v =>
    rcases execStb_next h with ⟨-, rfl⟩ | ⟨_, -, -, rfl⟩
    · exact .check _ _ rfl rfl
    · exact .ok _ rfl
  | ldb a =>
    rcases execLdb_next h with ⟨-, rfl⟩ | ⟨_, -, -, rfl⟩
    · exact .check _ _ rfl rfl
    · exact .ok _ rfl
  | crc off len =>
    rcases execCrc_next h with ⟨st, hg, rfl⟩ | ⟨-, -, rfl⟩ | ⟨_, -, -, -, rfl⟩
    · exact .gate st rfl hg rfl
    · exact .check _ _ rfl rfl
    · exact .ok _ rfl
  | crcv off len =>
    rcases execCrcv_next h with ⟨st, hg, rfl⟩ | ⟨-, -, rfl⟩ | ⟨_, _, -, -, -, -, ⟨-, rfl⟩ | ⟨-, rfl⟩⟩
    · exact .gate st rfl hg rfl
    · exact .check _ _ rfl rfl
    · exact .ok _ rfl
    · exact .check _ _ rfl rfl
  | ldw d v => cases h; exact .ok _ rfl
  | rdw r => cases h; exact .ok _ rfl
  | pack r =>
    rcases execPack_next h with ⟨st, hg, rfl⟩ | ⟨-, -, rfl⟩ | ⟨_, -, -, -, rfl⟩
    · exact .gate st rfl hg rfl
    · exact .check _ _ rfl rfl
    · exact .ok _ rfl
  | unframe n =>
    rcases execUnframe_next h with ⟨st, hg, rfl⟩ | ⟨-, -, rfl⟩ | ⟨-, -, -, rfl⟩ |
      ⟨_, -, -, -, -, ⟨_, _, _, -, rfl⟩ | ⟨_, -, -, rfl⟩⟩
    · exact .gate st rfl hg rfl
    · exact .check _ _ rfl rfl
    · exact .check _ _ rfl rfl
    · exact .check _ _ rfl rfl
    · exact .ok _ rfl
  | combine n =>
    rcases execCombine_next h with ⟨st, hg, rfl⟩ | ⟨-, -, rfl⟩ | ⟨-, -, -, rfl⟩
    · exact .gate st rfl hg rfl
    · exact .check _ _ rfl rfl
    · exact .ok _ rfl

/-- The one response that a step adds is determined by the list before and after. -/
theorem response_eq {rs : List Response} {r q : Response} (h : rs ++ [q] = rs ++ [r]) : r = q :=
  (List.singleton_inj.1 (List.append_cancel_left h)).symm

/-! ## The gate (R194) -/

/-- Past the gate, or for a command it does not guard, no answer has a status of the gate. -/
theorem Answered.status_ne_gate {i : Instr} {s t : State} {r : Response} (h : Answered i s t)
    (hopen : i.gated = false ∨ s.mode = .ready) (hr : t.responses = s.responses ++ [r]) :
    r.status ≠ .notConfigured ∧ r.status ≠ .configInvalid := by
  cases h with
  | ok d hok =>
    obtain rfl := response_eq (hok.symm.trans hr)
    exact ⟨by simp, by simp⟩
  | gate st hi hg ht =>
    rcases hopen with hng | hm
    · rw [hi] at hng; cases hng
    · rw [Mode.gate_eq_none.2 hm] at hg; cases hg
  | check st d hst ht =>
    subst ht
    obtain rfl := response_eq hr
    constructor <;> rintro rfl <;> cases hst
  | selfTestFail d hi ht =>
    rw [ht, State.failSelfTest_eq] at hr
    obtain rfl := response_eq hr
    exact ⟨by simp, by simp⟩

/-- Settles O49: the gate comes before every operand check, and no other check raises its two statuses. -/
theorem gateRefusesTheCodecUnlessReady : Obligations.GateRefusesTheCodecUnlessReady :=
  fun _ _ => ⟨exec_gated_unconfigured, exec_gated_failed,
    fun hopen _ _ h hr => (exec_answered h).status_ne_gate hopen hr⟩

/-! ## Error responses (R196, R197) -/

section
variable {s t : State} {v : Command} {rest : List HostAction}

/-- R8, R231: a legal command word leaves the port and is executed. -/
theorem step_command {i : Instr} (hd : decode v = .ok i) (hp : s.port = .command v :: rest) :
    step s = exec i (s.setPort rest) := by
  rcases step_cases s with ⟨hp', -⟩ | ⟨_, hp', -⟩ | ⟨_, _, _, hp', hd', hs⟩ | ⟨_, _, _, hp', he, -⟩ <;>
    rw [hp] at hp' <;> cases hp'
  · rw [hd] at hd'; cases hd'; exact hs
  · rw [hd] at he; cases he

/-- A command word, legal or not, is answered OK, or it is answered and no more, or it is a SELFTEST that fails. -/
theorem step_command_answered (hp : s.port = .command v :: rest) (h : step s = .next t) :
    (∃ d, t.responses = s.responses ++ [⟨.ok, d⟩]) ∨
    (∃ st d, st ≠ .selfTestFail ∧ t = (s.setPort rest).answer st d) ∨
    ∃ d, decode v = .ok .selftest ∧ t = (s.setPort rest).failSelfTest d := by
  cases hd : decode v with
  | error e =>
    rw [step_illegal ⟨e, hd⟩ hp] at h
    exact .inr (.inl ⟨.illegalCommand, _, by simp, (Host.Outcome.next.inj h).symm⟩)
  | ok i =>
    rw [step_command hd hp] at h
    cases exec_answered h with
    | ok d hr => exact .inl ⟨d, hr⟩
    | gate st hi hg ht =>
      refine .inr (.inl ⟨st, _, ?_, ht⟩)
      rcases Mode.gate_eq_some.1 hg with ⟨-, rfl⟩ | ⟨-, rfl⟩ <;> simp
    | check st d hst ht => exact .inr (.inl ⟨st, d, (by rintro rfl; cases hst), ht⟩)
    | selfTestFail d hi ht => exact .inr (.inr ⟨d, by rw [hi], ht⟩)

end

/-- Settles O50: of the three ways to answer a command word, OK is no error, the second leaves the unit as it was, and
the third is R197's exception. -/
theorem errorResponsesChangeNothing : Obligations.ErrorResponsesChangeNothing := by
  intro s t v rest r hp h hr
  rcases step_command_answered hp h with ⟨d, hok⟩ | ⟨st, d, hst, rfl⟩ | ⟨d, hd, rfl⟩
  · obtain rfl := response_eq (hok.symm.trans hr)
    exact ⟨fun hne _ => absurd rfl hne, fun hf => by cases hf⟩
  · obtain rfl := response_eq hr
    exact ⟨fun _ _ => rfl, fun hf => absurd hf hst⟩
  · rw [State.failSelfTest_eq] at hr ⊢
    obtain rfl := response_eq hr
    exact ⟨fun _ hne => absurd rfl hne, fun _ => ⟨hd, crcTable_getElem s.cfg.poly, rfl⟩⟩

end Sys2Proof.Machine
end

section
/-! PROOFS of the round trip of spec/30_encoding.md: the decoder and the encoder are inverse to each other on the legal
commands and the words that decode (R71, R79, R86). -/

namespace Sys2Proof

/-- What the decoder gives is no CSRW of a read-only register (R79 item 4). -/
theorem wellFormed_of_decode {v : Command} {i : Instr} (h : decode v = .ok i) : i.wellFormed = true := by
  cases i with
  | csrw csr imm8 =>
    rw [decode_csrw (fieldOp_of_decode h)] at h
    obtain ⟨-, h⟩ := needZero_eq_ok.1 h
    obtain ⟨_, -, h⟩ := exceptBind_eq_ok.1 h
    obtain ⟨hw, hi⟩ := csrwOf_eq_ok.1 h
    cases hi
    exact hw
  | _ => rfl

/-- Settles O1: the decoder reads every field that the encoder writes. -/
theorem decodeOfEncodeIsTheCommand : Obligations.DecodeOfEncodeIsTheCommand :=
  fun _ => decode_encode

/-- Settles O2: the decoder accepts only legal commands, and it ignores no bit of a word. -/
theorem encodeOfDecodeIsTheWord : Obligations.EncodeOfDecodeIsTheWord :=
  fun _ _ h => ⟨wellFormed_of_decode h, encode_of_decode h⟩

/-- Settles O5: each word is the one the encoder gives for its command. -/
theorem writtenOutWordsDecode : Obligations.WrittenOutWordsDecode :=
  ⟨decode_encode (i := .csrw .xorOut 0x55) rfl, decode_encode (i := .stb 5 0x68) rfl,
    decode_encode (i := .crcv 3 2) rfl, decode_encode (i := .ldw 1 0x0304) rfl, decode_encode (i := .unframe 2) rfl⟩

end Sys2Proof
end

section
/-! PROOFS of the statements that say which command writes which state: word registers (R24), bytes of BUF (R52), LEN
(R28), and the statuses of each command (R195). All go by one fact about every command: what it writes when it
completes. -/

namespace Sys2Proof.Machine

/-- The ten ways in which a command leads from `s` to a next state `t`: it is answered and writes nothing, or it is one
of the nine commands that write, and its checks have passed. -/
inductive Effect (i : Instr) (s t : State) : Prop
  /-- A command that reads succeeds, or a command ends with one of the errors of R195. -/
  | answer (st : Status) (d : Data)
      (hst : (st = .ok ∧ i.readsOnly = true) ∨ st ∈ i.errors ∨ i.wellFormed = false) (ht : t = s.answer st d)
  | reset (d : Data) (hi : i = .reset) (ht : t = s.resetUnit.answer .ok d)
  | csrw (csr : Csr) (v : Byte) (c : ChecksumConfig) (hi : i = .csrw csr v) (hm : s.mode = .unconfigured)
      (ht : t = (s.setCfg c).respond 0#8)
  | selftest (check : Byte) (d : Data) (hi : i = .selftest) (hcheck : check = checksum s.cfg CHECK_STRING)
      (ht : t = ((s.setTable (crcTable s.cfg.poly)).setMode (selfTestMode check)).answer (selfTestStatus check) d)
  | clrb (d : Data) (hi : i = .clrb) (ht : t = (s.setLen 0#8).answer .ok d)
  | pushb (v : Byte) (m : Memory) (d : Data) (hi : i = .pushb v) (hlt : s.len.toNat < BUF_BYTES)
      (hw : s.buf.write s.len.toNat v = some m) (ht : t = ((s.setBuf m).setLen (s.len + 1)).answer .ok d)
  | stb (addr v : Byte) (m : Memory) (d : Data) (hi : i = .stb addr v) (hlt : addr.toNat < s.len.toNat)
      (hw : s.buf.write addr.toNat v = some m) (ht : t = (s.setBuf m).answer .ok d)
  | ldw (r : WordReg) (v : Word) (d : Data) (hi : i = .ldw r v) (ht : t = (s.setWord r v).answer .ok d)
  | pack (src : WordReg) (m : Memory) (d : Data) (hi : i = .pack src) (hle : s.len.toNat + 3 ≤ BUF_BYTES)
      (hw : s.buf.writeSpan s.len.toNat (packWord s.cfg (s.word src)) = some m)
      (ht : t = ((s.setBuf m).setLen (s.len + 3)).answer .ok d)
  | unframe (count : Byte) (words : List Word) (d : Data) (hi : i = .unframe count) (hlen : words.length = count.toNat)
      (ht : t = (s.setWords (writeWords s.w 0 words)).answer .ok d)

/-- The gate's two errors are listed for every gated command (R194, R195). -/
theorem gate_mem_errors {i : Instr} {m : Mode} {st : Status} (hi : i.gated = true) (hg : m.gate = some st) :
    st ∈ i.errors := by
  have hst : st = .notConfigured ∨ st = .configInvalid := (Mode.gate_eq_some.1 hg).imp And.right And.right
  cases i with
  | crc | crcv | pack | unframe | combine => rcases hst with rfl | rfl <;> simp [Instr.errors]
  | _ => cases hi

theorem effect_of_gate {i : Instr} {s : State} {st : Status} (hi : i.gated = true) (hg : s.mode.gate = some st) :
    Effect i s (s.raise st 0#8) :=
  .answer st _ (.inr (.inl (gate_mem_errors hi hg))) rfl

theorem effect_of_error {i : Instr} {s : State} {n : Nat} {st : Status} (info : BitVec n)
    (h : st ∈ i.errors := by simp [Instr.errors]) :
    Effect i s (s.raise st info) :=
  .answer st _ (.inr (.inl h)) rfl

theorem effect_of_read {i : Instr} {s : State} {n : Nat} (v : BitVec n) (h : i.readsOnly = true) :
    Effect i s (s.respond v) :=
  .answer .ok _ (.inl ⟨rfl, h⟩) rfl

/-- Only STATUS and LEN cannot be written, and CSRW of them is no legal command (R79 item 4, R104). -/
theorem csr_not_writable_of_write {c : ChecksumConfig} {csr : Csr} {v : Byte} (h : c.write csr v = none) :
    csr.writable = false := by
  cases csr with
  | status | len => rfl
  | _ => cases h

/-- Every command that completes does so in one of the ten ways. -/
theorem exec_effect {i : Instr} {s t : State} (h : exec i s = .next t) : Effect i s t := by
  cases i with
  | reset => cases h; exact .reset _ rfl rfl
  | csrr csr => cases h; exact effect_of_read _ rfl
  | csrw csr v =>
    rcases execCsrw_next h with ⟨hc, rfl⟩ | ⟨_, -, -, rfl⟩ | ⟨c, -, hm, rfl⟩
    · exact .answer _ _ (.inr (.inr (csr_not_writable_of_write hc))) rfl
    · exact effect_of_error _
    · exact .csrw csr v c rfl hm rfl
  | selftest =>
    rcases execSelftest_next h with ⟨-, rfl⟩ | ⟨-, ht⟩
    · exact effect_of_error _
    · exact .selftest _ _ rfl rfl ht
  | clrb => cases h; exact .clrb _ rfl rfl
  | pushb v =>
    rcases execPushb_next h with ⟨-, rfl⟩ | ⟨m, hlt, hw, rfl⟩
    · exact effect_of_error _
    · exact .pushb v m _ rfl hlt hw rfl
  | stb addr v =>
    rcases execStb_next h with ⟨-, rfl⟩ | ⟨m, hlt, hw, rfl⟩
    · exact effect_of_error _
    · exact .stb addr v m _ rfl hlt hw rfl
  | ldb addr =>
    rcases execLdb_next h with ⟨-, rfl⟩ | ⟨_, -, -, rfl⟩
    · exact effect_of_error _
    · exact effect_of_read _ rfl
  | crc off len =>
    rcases execCrc_next h with ⟨_, hg, rfl⟩ | ⟨-, -, rfl⟩ | ⟨_, -, -, -, rfl⟩
    · exact effect_of_gate rfl hg
    · exact effect_of_error _
    · exact effect_of_read _ rfl
  | crcv off len =>
    rcases execCrcv_next h with ⟨_, hg, rfl⟩ | ⟨-, -, rfl⟩ | ⟨_, _, -, -, -, -, ⟨-, rfl⟩ | ⟨-, rfl⟩⟩
    · exact effect_of_gate rfl hg
    · exact effect_of_error _
    · exact effect_of_read _ rfl
    · exact effect_of_error _
  | ldw r v => cases h; exact .ldw r v _ rfl rfl
  | rdw src => cases h; exact effect_of_read _ rfl
  | pack src =>
    rcases execPack_next h with ⟨_, hg, rfl⟩ | ⟨-, -, rfl⟩ | ⟨m, -, hle, hw, rfl⟩
    · exact effect_of_gate rfl hg
    · exact effect_of_error _
    · exact .pack src m _ rfl hle hw rfl
  | unframe count =>
    rcases execUnframe_next h with ⟨_, hg, rfl⟩ | ⟨-, -, rfl⟩ | ⟨-, -, -, rfl⟩ |
      ⟨_, -, -, -, -, ⟨_, _, _, -, rfl⟩ | ⟨words, -, hlen, rfl⟩⟩
    · exact effect_of_gate rfl hg
    · exact effect_of_error _
    · exact effect_of_error _
    · exact effect_of_error _
    · exact .unframe count words _ rfl hlen rfl
  | combine n =>
    rcases execCombine_next h with ⟨_, hg, rfl⟩ | ⟨-, -, rfl⟩ | ⟨-, -, -, rfl⟩
    · exact effect_of_gate rfl hg
    · exact effect_of_error _
    · exact effect_of_read _ rfl

/-! ## Statuses (R195) -/

/-- SELFTEST that is not locked answers OK or SelfTestFail (R106). -/
theorem selfTestStatus_cases (v : Byte) : selfTestStatus v = .ok ∨ selfTestStatus v = .selfTestFail := by
  unfold selfTestStatus
  split
  · exact .inl rfl
  · exact .inr rfl

/-- The status of each way: an error of the list, SelfTestFail among it, or OK. -/
theorem Effect.status {i : Instr} {s t : State} (hi : i.wellFormed = true) (h : Effect i s t) :
    ∃ st d, t.responses = s.responses ++ [⟨st, d⟩] ∧ (st = .ok ∨ st ∈ i.errors) := by
  cases h with
  | answer st d hst ht =>
    refine ⟨st, d, by simp [ht], ?_⟩
    rcases hst with ⟨hok, -⟩ | herr | hill
    · exact .inl hok
    · exact .inr herr
    · rw [hi] at hill; cases hill
  | selftest check d hsel _ ht =>
    refine ⟨_, d, by simp [ht], (selfTestStatus_cases check).imp_right fun hfail => ?_⟩
    rw [hfail, hsel]
    decide
  | reset _ _ ht | csrw _ _ _ _ _ ht | clrb _ _ ht | pushb _ _ _ _ _ _ ht | stb _ _ _ _ _ _ _ ht | ldw _ _ _ _ ht
  | pack _ _ _ _ _ _ ht | unframe _ _ _ _ _ ht => exact ⟨.ok, _, by rw [ht]; rfl, .inl rfl⟩

/-- Settles O51: each of the ten ways answers once, with a status of the command's list. -/
theorem eachCommandAnswersOnlyItsStatuses : Obligations.EachCommandAnswersOnlyItsStatuses := by
  intro i s t hi h
  obtain ⟨st, d, hr, hst⟩ := (exec_effect h).status hi
  exact ⟨⟨st, d⟩, hr, (exec_answers h).1, hst⟩

/-- The statuses of R190, in the order of their codes. -/
def allStatuses : List Status :=
  [.ok, .illegalCommand, .notConfigured, .configInvalid, .configLocked, .selfTestFail, .addressRange, .bufferOverflow,
    .countRange, .lengthMismatch, .checksumMismatch]

theorem mem_allStatuses (st : Status) : st ∈ allStatuses := by
  cases st <;> decide

/-- Settles O52: every status is in the list, whose codes are different and at most 0x0A. -/
theorem statusCodesAreTheStatedOnes : Obligations.StatusCodesAreTheStatedOnes := by
  have hnodup : (allStatuses.map Status.code).Nodup := by decide
  have hbound : ∀ st ∈ allStatuses, st.code.toNat ≤ 0x0A := by decide
  exact ⟨rfl, fun a b => ⟨List.inj_on_of_nodup_map hnodup (mem_allStatuses a) (mem_allStatuses b),
    hbound a (mem_allStatuses a)⟩⟩

/-! ## LEN (R28) -/

/-- What becomes of LEN; PUSHB and PACK add to it only what still fits. -/
theorem Effect.len_cases {i : Instr} {s t : State} (h : Effect i s t) :
    t.len = s.len ∨ ((i = .reset ∨ i = .clrb) ∧ t.len = 0#8) ∨
    (∃ v, i = .pushb v ∧ s.len.toNat < BUF_BYTES ∧ t.len.toNat = s.len.toNat + 1) ∨
    ∃ src, i = .pack src ∧ s.len.toNat + 3 ≤ BUF_BYTES ∧ t.len.toNat = s.len.toNat + 3 := by
  cases h with
  | answer _ _ _ ht | csrw _ _ _ _ _ ht | selftest _ _ _ _ ht | stb _ _ _ _ _ _ _ ht | ldw _ _ _ _ ht
  | unframe _ _ _ _ _ ht => exact .inl (by simp [ht])
  | reset _ hi ht => exact .inr (.inl ⟨.inl hi, by simp [ht]⟩)
  | clrb _ hi ht => exact .inr (.inl ⟨.inr hi, by simp [ht]⟩)
  | pushb v _ _ hi hlt _ ht => exact .inr (.inr (.inl ⟨v, hi, hlt, by rw [ht]; exact len_add_one_toNat hlt⟩))
  | pack src _ _ hi hle _ ht => exact .inr (.inr (.inr ⟨src, hi, hle, by rw [ht]; exact len_add_three_toNat hle⟩))

/-- Settles O56: LEN stays, or it changes in one of the three ways. -/
theorem lenChangesOnlyBy : Obligations.LenChangesOnlyBy := by
  intro i s t h hne
  rcases (exec_effect h).len_cases with heq | hzero | ⟨v, hi, -, hlen⟩ | ⟨src, hi, -, hlen⟩
  · exact absurd heq hne
  · exact .inl hzero
  · exact .inr (.inl ⟨v, hi, hlen⟩)
  · exact .inr (.inr ⟨src, hi, hlen⟩)

/-! ## The word registers (R24) -/

/-- Settles O53: of the ten ways only three write word registers, and LDW and UNFRAME only those they name. -/
theorem wordRegistersChangeOnlyBy : Obligations.WordRegistersChangeOnlyBy := by
  intro i s t r h hne
  cases exec_effect h with
  | answer _ _ _ ht | csrw _ _ _ _ _ ht | clrb _ _ ht | pushb _ _ _ _ _ _ ht | stb _ _ _ _ _ _ _ ht
  | pack _ _ _ _ _ _ ht | selftest _ _ _ _ ht => exact absurd (by simp [ht]) hne
  | reset _ hi ht => exact .inl ⟨hi, by rw [ht]; exact Vector.getElem_replicate r.isLt⟩
  | ldw d v _ hi ht =>
    subst hi ht
    by_cases hd : d = r
    · subst hd
      exact .inr (.inl (congrArg (Instr.ldw d) (Vector.getElem_set_self d.isLt).symm))
    · exact absurd (Vector.getElem_set_ne d.isLt r.isLt (Fin.val_ne_of_ne hd)) hne
  | unframe count words _ hi hlen ht =>
    subst ht
    refine .inr (.inr ⟨count, hi, ?_⟩)
    by_contra! hle
    exact hne (writeWords_zero_of_le s.w r (hlen ▸ hle))

/-! ## The bytes of BUF (R52) -/

/-- Settles O55: of the ten ways only four write BUF; PUSHB and STB write one byte, PACK a span of three. -/
theorem bufferBytesChangeOnlyBy : Obligations.BufferBytesChangeOnlyBy := by
  intro i s t a hwf h hne
  cases exec_effect h with
  | answer _ _ _ ht | csrw _ _ _ _ _ ht | clrb _ _ ht | ldw _ _ _ _ ht | unframe _ _ _ _ _ ht
  | selftest _ _ _ _ ht => exact absurd (by simp [ht]) hne
  | reset _ hi _ => exact .inl hi
  | pushb v m _ hi _ hw ht =>
    subst ht
    have hread := Memory.read_write hwf.1 hw a
    have ha : a = s.len.toNat := by
      by_contra hna
      exact hne (hread.trans (if_neg hna))
    exact .inr (.inl ⟨v, hi, ha, hread.trans (if_pos ha)⟩)
  | stb addr v m _ hi hlt hw ht =>
    subst ht
    have hread := Memory.read_write hwf.1 hw a
    have ha : a = addr.toNat := by
      by_contra hna
      exact hne (hread.trans (if_neg hna))
    exact .inr (.inr (.inl ⟨addr, v, hi, ha, ha ▸ hlt, hread.trans (if_pos ha)⟩))
  | pack src m _ hi _ hw ht =>
    subst ht
    have hread := (Memory.read_writeSpan hwf hw).2 a
    have ha : s.len.toNat ≤ a ∧ a < s.len.toNat + (packWord s.cfg (s.word src)).length := by
      by_contra hna
      exact hne (hread.trans (dif_neg hna))
    exact .inr (.inr (.inr ⟨src, hi, ha⟩))

end Sys2Proof.Machine
end

section
/-! PROOFS of the statements about steps and runs: the invariant of R34, and that every host action completes (R208,
R231). Both go by one fact about a command, then one about a step, then one about a run. -/

namespace Sys2Proof.Machine

/-- Settles O6: `step_command` is the statement. -/
theorem stepRunsTheDecodedCommand : Obligations.StepRunsTheDecodedCommand :=
  fun _ _ _ _ hp hd => step_command hd hp

/-- Settles O8: with an empty port there is no action to take. -/
theorem idleUnitHoldsItsState : Obligations.IdleUnitHoldsItsState := by
  intro s hp
  rw [step, State.takeAction, hp]

/-! ## The invariant (R34) -/

/-- While UNCONFIGURED the invariant says something of LEN and the memory only. -/
theorem inv_of_unconfigured {s : State} (hm : s.mode = .unconfigured) (hlen : s.lenInBounds) (hwf : Memory.wf s.buf) :
    s.Inv := by
  refine ⟨hlen, ⟨fun h => ?_, fun h => ?_⟩, fun h => absurd hm h, hwf⟩ <;> rw [hm] at h <;> cases h

/-- Reset, by the command or the reset input, leaves a state that meets the invariant, whatever it found. -/
theorem resetUnit_inv (s : State) : s.resetUnit.Inv :=
  inv_of_unconfigured rfl (Nat.zero_le _) Memory.empty_wf

/-- Settles O10: the reset state is what reset leaves. -/
theorem resetStateMeetsTheInvariant : Obligations.ResetStateMeetsTheInvariant :=
  resetUnit_inv State.reset

/-- LEN grows only by what still fits (R34 item 1). -/
theorem Effect.keeps_lenInBounds {i : Instr} {s t : State} (hs : s.lenInBounds) (h : Effect i s t) :
    t.lenInBounds := by
  rcases h.len_cases with heq | ⟨-, hzero⟩ | ⟨_, -, hlt, hlen⟩ | ⟨_, -, hle, hlen⟩
  · rw [State.lenInBounds, heq]; exact hs
  · rw [State.lenInBounds, hzero]; exact Nat.zero_le _
  · exact hlen.trans_le hlt
  · exact hlen.trans_le hle

/-- SELFTEST sets MODE to READY exactly when the check passes (R106). -/
theorem selfTestMode_eq_ready_iff {v : Byte} : selfTestMode v = .ready ↔ v = 0xF7#8 := by
  unfold selfTestMode CHECK_VALUE; split <;> simp_all

theorem selfTestMode_eq_failed_iff {v : Byte} : selfTestMode v = .failed ↔ v ≠ 0xF7#8 := by
  unfold selfTestMode CHECK_VALUE; split <;> simp_all

/-- Only SELFTEST makes MODE other than UNCONFIGURED, and it writes MODE and TABLE as R34 items 3 to 5 say. -/
theorem Effect.keeps_check {i : Instr} {s t : State} (hs : s.modeTellsCheck ∧ s.tableMatchesPoly) (h : Effect i s t) :
    t.modeTellsCheck ∧ t.tableMatchesPoly := by
  cases h with
  | answer _ _ _ ht | clrb _ _ ht | pushb _ _ _ _ _ _ ht | stb _ _ _ _ _ _ _ ht | ldw _ _ _ _ ht
  | pack _ _ _ _ _ _ ht | unframe _ _ _ _ _ ht => subst ht; exact hs
  | reset _ _ ht =>
    obtain ⟨-, hmode, htable, -⟩ := resetUnit_inv s
    subst ht; exact ⟨hmode, htable⟩
  | csrw _ _ _ _ hm ht =>
    subst ht
    refine ⟨⟨fun h => ?_, fun h => ?_⟩, fun h => absurd hm h⟩ <;> cases hm.symm.trans h
  | selftest check _ _ hcheck ht =>
    have htable := crcTable_getElem s.cfg.poly
    simp only [ht, State.modeTellsCheck, State.tableMatchesPoly, State.answer_mode, State.answer_cfg,
      State.answer_table, State.setMode_mode, State.setMode_cfg, State.setMode_table, State.setTable_cfg,
      State.setTable_table, ← hcheck]
    exact ⟨⟨selfTestMode_eq_ready_iff.1, selfTestMode_eq_failed_iff.1⟩, fun _ => htable⟩

theorem exec_keeps_inv {i : Instr} {s t : State} (hs : s.Inv) (h : exec i s = .next t) : t.Inv := by
  obtain ⟨hlen, hmode, htable, hwf⟩ := hs
  obtain ⟨hmode', htable'⟩ := (exec_effect h).keeps_check ⟨hmode, htable⟩
  exact ⟨(exec_effect h).keeps_lenInBounds hlen, hmode', htable', exec_keeps_wf hwf h⟩

/-- Settles O11: a command keeps the invariant, reset makes it hold, and an idle step or an illegal word touches nothing
it speaks of. -/
theorem everyStepKeepsTheInvariant : Obligations.EveryStepKeepsTheInvariant := by
  intro s t hs h
  rcases step_cases s with ⟨-, hstep⟩ | ⟨rest, -, hstep⟩ | ⟨_, rest, i, -, -, hstep⟩ | ⟨_, rest, _, -, -, hstep⟩ <;>
    rw [hstep] at h
  · cases h; exact hs
  · cases h; exact resetUnit_inv _
  · exact exec_keeps_inv (s := s.setPort rest) hs h
  · cases h; exact hs

/-! ## Every action completes (R208, R231) -/

/-- With LEN in bounds no command reaches an address that does not exist (R53, R54). -/
theorem exec_completes (i : Instr) {s : State} (hs : s.lenInBounds) : ∃ t, exec i s = .next t := by
  by_cases hgate : i.gated = true ∧ s.mode ≠ .ready
  · obtain ⟨hi, hm⟩ := hgate
    obtain ⟨st, hg⟩ := Option.ne_none_iff_exists'.1 (mt Mode.gate_eq_none.1 hm)
    exact ⟨_, exec_gated hi hg⟩
  have ready : i.gated = true → s.mode = .ready := by tauto
  cases i with
  | reset => exact ⟨_, exec_reset s⟩
  | csrr csr => exact ⟨_, exec_csrr csr s⟩
  | csrw csr v =>
    cases hc : s.cfg.write csr v with
    | none => exact ⟨_, exec_csrw_readOnly hc⟩
    | some c =>
      by_cases hm : s.mode = .unconfigured
      · exact ⟨_, exec_csrw_unconfigured hc hm⟩
      · exact ⟨_, exec_csrw_locked hc hm⟩
  | selftest =>
    by_cases hm : s.mode = .unconfigured
    · exact ⟨_, exec_selftest_unconfigured hm⟩
    · exact ⟨_, exec_selftest_locked hm⟩
  | clrb => exact ⟨_, rfl⟩
  | pushb v =>
    rcases hs.eq_or_lt with hfull | hlt
    · exact ⟨_, exec_pushb_full v hfull⟩
    · exact ⟨_, exec_pushb_of_write hlt (Memory.write_of_lt _ v hlt)⟩
  | stb addr v =>
    rcases Nat.lt_or_ge addr.toNat s.len.toNat with hlt | hge
    · exact ⟨_, exec_stb_of_write hlt (Memory.write_of_lt _ v (hlt.trans_le hs))⟩
    · exact ⟨_, exec_stb_outOfRange v hge⟩
  | ldb addr =>
    rcases Nat.lt_or_ge addr.toNat s.len.toNat with hlt | hge
    · exact ⟨_, exec_ldb_of_read hlt (Memory.read_of_lt _ (hlt.trans_le hs))⟩
    · exact ⟨_, exec_ldb_outOfRange hge⟩
  | crc off len =>
    rcases Nat.lt_or_ge s.len.toNat (off.toNat + len.toNat) with hlt | hle
    · exact ⟨_, exec_crc_outOfRange (ready rfl) hlt⟩
    · obtain ⟨bytes, hspan, -⟩ := s.buf.exists_readSpan (hle.trans hs)
      exact ⟨_, exec_crc_of_readSpan (ready rfl) hle hspan⟩
  | crcv off len =>
    rcases Nat.lt_or_ge s.len.toNat (off.toNat + len.toNat + 1) with hlt | hle
    · exact ⟨_, exec_crcv_outOfRange (ready rfl) hlt⟩
    · have hin : off.toNat + len.toNat < BUF_BYTES := hle.trans hs
      obtain ⟨bytes, hspan, -⟩ := s.buf.exists_readSpan hin.le
      rw [exec_crcv_of_readSpan (ready rfl) hle hspan (Memory.read_of_lt _ hin)]
      split <;> exact ⟨_, rfl⟩
  | ldw d v => exact ⟨_, exec_ldw d v s⟩
  | rdw src => exact ⟨_, exec_rdw src s⟩
  | pack src =>
    rcases Nat.lt_or_ge BUF_BYTES (s.len.toNat + 3) with hlt | hle
    · exact ⟨_, exec_pack_overflow src (ready rfl) hlt⟩
    · obtain ⟨m, hw⟩ := Memory.writeSpan_isSome s.buf (bytes := packWord s.cfg (s.word src)) hle
      exact ⟨_, exec_pack_of_writeSpan (ready rfl) hle hw⟩
  | unframe count =>
    rcases Nat.lt_or_ge NW count.toNat with hlt | hc
    · exact ⟨_, exec_unframe_countRange (ready rfl) hlt⟩
    by_cases hlen : s.len.toNat = 3 * count.toNat
    · obtain ⟨bytes, hspan⟩ := Memory.readSpan_isSome s.buf (addr := 0) (n := s.len.toNat) (.inr (by omega))
      have hwhole : bytes.length = 3 * count.toNat := (Memory.readSpan_eq_some.1 hspan).1.trans hlen
      rcases unframeGroups_cases s.cfg 0 hwhole with ⟨words, hok, -⟩ | ⟨_, _, _, herr, -⟩
      · exact ⟨_, exec_unframe_ok (ready rfl) hc hlen hspan ((unframe_of_length_eq hwhole).trans hok)⟩
      · exact ⟨_, exec_unframe_checksumMismatch (ready rfl) hc hlen hspan ((unframe_of_length_eq hwhole).trans herr)⟩
    · exact ⟨_, exec_unframe_lengthMismatch (ready rfl) hc hlen⟩
  | combine n =>
    by_cases hn : n = 0#8 ∨ 4 < n.toNat
    · exact ⟨_, exec_combine_countRange (ready rfl) hn⟩
    · obtain ⟨h0, h4⟩ := not_or.1 hn
      exact ⟨_, exec_combine_of_count (ready rfl) (by bv_omega) (by omega)⟩

/-- A command word, whatever its bits, is executed or is illegal, and in both cases answered once. -/
theorem step_command_completes {s : State} {v : Command} {rest : List HostAction} (hs : s.lenInBounds)
    (hp : s.port = .command v :: rest) :
    ∃ t r, step s = .next t ∧ t.port = rest ∧ t.responses = s.responses ++ [r] := by
  cases hd : decode v with
  | error e => exact ⟨_, _, step_illegal ⟨e, hd⟩ hp, rfl, rfl⟩
  | ok i =>
    obtain ⟨t, ht⟩ := exec_completes i (s := s.setPort rest) hs
    obtain ⟨hport, r, hr⟩ := exec_answers ht
    exact ⟨t, r, (step_command hd hp).trans ht, hport, hr⟩

/-- Settles O12: a command word is answered once, the reset input resets, and the invariant is kept. -/
theorem everyActionCompletes : Obligations.EveryActionCompletes := by
  intro s a rest hs hp
  cases a with
  | reset =>
    have hstep := step_reset_input hp
    exact ⟨_, hstep, everyStepKeepsTheInvariant s _ hs hstep, rfl, nofun, fun _ => rfl⟩
  | command v =>
    obtain ⟨t, r, hstep, hport, hr⟩ := step_command_completes hs.1 hp
    exact ⟨t, hstep, everyStepKeepsTheInvariant s t hs hstep, hport, fun _ => ⟨r, hr⟩, nofun⟩

/-- Settles O13, by induction on the actions at the port. -/
theorem runAnswersEveryCommandWord : Obligations.RunAnswersEveryCommandWord := by
  intro s hs
  induction hport : s.port generalizing s with
  | nil => exact ⟨s, [], rfl, hport, hs, (List.append_nil _).symm, rfl⟩
  | cons a rest ih =>
    obtain ⟨u, hstep, hu, hrest, hyes, hno⟩ := everyActionCompletes s a rest hs hport
    obtain ⟨t, rs, hrun, htport, ht, hrs, hcount⟩ := ih u hu hrest
    have hrun' : core.run (a :: rest).length s = .next t := (run_of_step hstep).trans hrun
    cases ha : a.answered with
    | true =>
      obtain ⟨r, hr⟩ := hyes ha
      exact ⟨t, r :: rs, hrun', htport, ht, by rw [hrs, hr, List.append_assoc]; rfl,
        by rw [List.filter_cons_of_pos ha, List.length_cons, List.length_cons, hcount]⟩
    | false =>
      exact ⟨t, rs, hrun', htport, ht, by rw [hrs, hno ha],
        by rw [List.filter_cons_of_neg (by simp [ha]), hcount]⟩

/-! ## Where the model stops (log entry 5) -/

theorem Memory.read_of_ge (m : Memory) {a : Nat} (h : BUF_BYTES ≤ a) : m.read a = none :=
  if_neg h.not_gt

theorem Memory.write_of_ge (m : Memory) {a : Nat} (b : Byte) (h : BUF_BYTES ≤ a) : m.write a b = none :=
  if_neg h.not_gt

/-- Settles O14: LEN allows the access, and BUF has no such address. -/
theorem addressesThatDoNotExistFault : Obligations.AddressesThatDoNotExistFault := by
  intro s imm8 addr hlen
  refine ⟨?pushb, fun hge hlt => ⟨?stb, ?ldb, fun hm => ⟨?crc, ?crcv⟩⟩⟩
  case pushb => simp only [exec, execPushb, if_neg hlen.ne', Memory.write_of_ge _ _ hlen.le]
  case stb => simp only [exec, execStb, if_neg hlt.not_ge, Memory.write_of_ge _ _ hge]
  case ldb => simp only [exec, execLdb, if_neg hlt.not_ge, Memory.read_of_ge _ hge]
  case crc =>
    have hone : (1 : Byte).toNat = 0 + 1 := rfl
    have hin : ¬ s.len.toNat < addr.toNat + 1 := by omega
    simp only [exec, execCrc, Mode.gate_eq_none.2 hm, hone, if_neg hin, Memory.readSpan, Memory.read_of_ge _ hge]
  case crcv =>
    have hzero : (0 : Byte).toNat = 0 := rfl
    have hin : ¬ s.len.toNat < addr.toNat + 0 + 1 := by omega
    simp only [exec, execCrcv, Mode.gate_eq_none.2 hm, hzero, if_neg hin, Memory.readSpan, Nat.add_zero,
      Memory.read_of_ge _ hge]

end Sys2Proof.Machine
end

section
/-! PROOFS of the statements about hidden state: TABLE and the bytes of BUF at LEN and above have no effect (R30, R53).
A command that completes on one of two such states completes on the other, and leaves two such states; steps and runs
follow. -/

namespace Sys2Proof.Machine

/-! ## Memories that agree below LEN -/

/-- The two memories hold the same bytes below address `n`. -/
def Memory.AgreeBelow (m m' : Memory) (n : Nat) : Prop := ∀ a < n, m.read a = m'.read a

section
variable {m₁ m₂ : Memory} {n : Nat} (hagree : m₁.AgreeBelow m₂ n)
include hagree

theorem Memory.AgreeBelow.readSpan_eq {addr k : Nat} (h : addr + k ≤ n) : m₁.readSpan addr k = m₂.readSpan addr k :=
  Memory.readSpan_congr fun a _ ha => hagree a (ha.trans_le h)

/-- The same byte written to both, at an address below `n` or next to it, keeps the agreement and may extend it. -/
theorem Memory.AgreeBelow.write {m₁' m₂' : Memory} {a k : Nat} {b : Byte} (h₁ : Memory.wf m₁) (h₂ : Memory.wf m₂)
    (hw₁ : m₁.write a b = some m₁') (hw₂ : m₂.write a b = some m₂') (hk : k ≤ n ∨ (a = n ∧ k = n + 1)) :
    m₁'.AgreeBelow m₂' k := by
  intro x hx
  rw [Memory.read_write h₁.1 hw₁, Memory.read_write h₂.1 hw₂]
  by_cases hxa : x = a
  · rw [if_pos hxa, if_pos hxa]
  · rw [if_neg hxa, if_neg hxa]
    exact hagree x (by omega)

/-- The same bytes written to both from `n` on extend the agreement. -/
theorem Memory.AgreeBelow.writeSpan {m₁' m₂' : Memory} {bytes : List Byte} (h₁ : Memory.wf m₁) (h₂ : Memory.wf m₂)
    (hw₁ : m₁.writeSpan n bytes = some m₁') (hw₂ : m₂.writeSpan n bytes = some m₂') :
    m₁'.AgreeBelow m₂' (n + bytes.length) := by
  intro x hx
  rw [(Memory.read_writeSpan h₁ hw₁).2, (Memory.read_writeSpan h₂ hw₂).2]
  by_cases hxn : n ≤ x
  · rw [dif_pos ⟨hxn, hx⟩, dif_pos ⟨hxn, hx⟩]
  · rw [dif_neg (hxn ·.1), dif_neg (hxn ·.1)]
    exact hagree x (by omega)

end

/-! ## One command -/

theorem State.Indistinguishable.symm {s t : State} (h : s.Indistinguishable t) : t.Indistinguishable s := by
  obtain ⟨hcfg, hmode, hlen, hw, hport, hresp, hs, ht, hread⟩ := h
  exact ⟨hcfg.symm, hmode.symm, hlen.symm, hw.symm, hport.symm, hresp.symm, ht, hs,
    fun a ha => (hread a (hlen ▸ ha)).symm⟩

/-- A state indistinguishable from `s` is `s` with another TABLE and another BUF. -/
theorem State.Indistinguishable.eq_set {s t : State} (h : s.Indistinguishable t) :
    t = (s.setTable t.table).setBuf t.buf := by
  obtain ⟨hcfg, hmode, hlen, hw, hport, hresp, -⟩ := h
  exact State.eq_of_fields hcfg.symm hmode.symm rfl rfl hlen.symm hw.symm hport.symm hresp.symm

/-- What the command reads and writes below LEN agrees in both states; TABLE it never reads. -/
theorem exec_set_hidden {i : Instr} {s s' : State} {table : Vector Byte 256} {m : Memory} (hs : Memory.wf s.buf)
    (hm : Memory.wf m) (hagree : s.buf.AgreeBelow m s.len.toNat) (h : exec i s = .next s') :
    ∃ t', exec i ((s.setTable table).setBuf m) = .next t' ∧ s'.Indistinguishable t' := by
  let t := (s.setTable table).setBuf m
  have answered (st : Status) (d : Data) : (s.answer st d).Indistinguishable (t.answer st d) :=
    ⟨rfl, rfl, rfl, rfl, rfl, rfl, hs, hm, hagree⟩
  cases i with
  | reset =>
    cases h
    exact ⟨_, exec_reset t, rfl, rfl, rfl, rfl, rfl, rfl, Memory.empty_wf, Memory.empty_wf, fun _ _ => rfl⟩
  | csrr csr => cases h; exact ⟨_, exec_csrr csr t, by cases csr <;> exact answered _ _⟩
  | csrw csr v =>
    rcases execCsrw_next h with ⟨hc, rfl⟩ | ⟨_, hc, hmode, rfl⟩ | ⟨_, hc, hmode, rfl⟩
    · exact ⟨_, exec_csrw_readOnly (s := t) hc, answered _ _⟩
    · exact ⟨_, exec_csrw_locked (s := t) hc hmode, answered _ _⟩
    · exact ⟨_, exec_csrw_unconfigured (s := t) hc hmode, rfl, rfl, rfl, rfl, rfl, rfl, hs, hm, hagree⟩
  | selftest =>
    by_cases hmode : s.mode = .unconfigured
    · rw [exec_selftest_unconfigured hmode] at h
      cases h
      exact ⟨_, exec_selftest_unconfigured (s := t) hmode, rfl, rfl, rfl, rfl, rfl, rfl, hs, hm, hagree⟩
    · rw [exec_selftest_locked hmode] at h
      cases h
      exact ⟨_, exec_selftest_locked (s := t) hmode, answered _ _⟩
  | clrb => cases h; exact ⟨_, rfl, rfl, rfl, rfl, rfl, rfl, rfl, hs, hm, fun a ha => absurd ha a.not_lt_zero⟩
  | pushb v =>
    rcases execPushb_next h with ⟨hfull, rfl⟩ | ⟨m', hlt, hw, rfl⟩
    · exact ⟨_, exec_pushb_full (s := t) v hfull, answered _ _⟩
    · have hw' := Memory.write_of_lt m v hlt
      exact ⟨_, exec_pushb_of_write (s := t) hlt hw', rfl, rfl, rfl, rfl, rfl, rfl, Memory.write_wf hs hw,
        Memory.write_wf hm hw', hagree.write hs hm hw hw' (.inr ⟨rfl, len_add_one_toNat hlt⟩)⟩
  | stb addr v =>
    rcases execStb_next h with ⟨hge, rfl⟩ | ⟨m', hlt, hw, rfl⟩
    · exact ⟨_, exec_stb_outOfRange (s := t) v hge, answered _ _⟩
    · have hw' := Memory.write_of_lt m v (Memory.write_eq_some.1 hw).1
      exact ⟨_, exec_stb_of_write (s := t) hlt hw', rfl, rfl, rfl, rfl, rfl, rfl, Memory.write_wf hs hw,
        Memory.write_wf hm hw', hagree.write hs hm hw hw' (.inl le_rfl)⟩
  | ldb addr =>
    rcases execLdb_next h with ⟨hge, rfl⟩ | ⟨b, hlt, hr, rfl⟩
    · exact ⟨_, exec_ldb_outOfRange (s := t) hge, answered _ _⟩
    · exact ⟨_, exec_ldb_of_read (s := t) hlt ((hagree _ hlt).symm.trans hr), answered _ _⟩
  | crc off len =>
    rcases execCrc_next h with ⟨_, hg, rfl⟩ | ⟨hmode, hlt, rfl⟩ | ⟨bytes, hmode, hle, hspan, rfl⟩
    · exact ⟨_, exec_gated (s := t) rfl hg, answered _ _⟩
    · exact ⟨_, exec_crc_outOfRange (s := t) hmode hlt, answered _ _⟩
    · exact ⟨_, exec_crc_of_readSpan (s := t) hmode hle ((hagree.readSpan_eq hle).symm.trans hspan), answered _ _⟩
  | crcv off len =>
    rcases execCrcv_next h with ⟨_, hg, rfl⟩ | ⟨hmode, hlt, rfl⟩ | ⟨bytes, actual, hmode, hle, hspan, ha, hcmp⟩
    · exact ⟨_, exec_gated (s := t) rfl hg, answered _ _⟩
    · exact ⟨_, exec_crcv_outOfRange (s := t) hmode hlt, answered _ _⟩
    · have hexec := exec_crcv_of_readSpan (s := t) hmode hle
        ((hagree.readSpan_eq (Nat.le_of_succ_le hle)).symm.trans hspan) ((hagree _ hle).symm.trans ha)
      rcases hcmp with ⟨heq, rfl⟩ | ⟨hne, rfl⟩
      · exact ⟨_, hexec.trans (if_pos heq), answered _ _⟩
      · exact ⟨_, hexec.trans (if_neg hne), answered _ _⟩
  | ldw d v => cases h; exact ⟨_, exec_ldw d v t, rfl, rfl, rfl, rfl, rfl, rfl, hs, hm, hagree⟩
  | rdw src => cases h; exact ⟨_, exec_rdw src t, answered _ _⟩
  | pack src =>
    rcases execPack_next h with ⟨_, hg, rfl⟩ | ⟨hmode, hlt, rfl⟩ | ⟨m', hmode, hle, hw, rfl⟩
    · exact ⟨_, exec_gated (s := t) rfl hg, answered _ _⟩
    · exact ⟨_, exec_pack_overflow (s := t) src hmode hlt, answered _ _⟩
    · obtain ⟨m'', hw'⟩ := Memory.writeSpan_isSome m (bytes := packWord s.cfg (s.word src)) hle
      have hlen : (s.len + 3).toNat = s.len.toNat + (packWord s.cfg (s.word src)).length := len_add_three_toNat hle
      exact ⟨_, exec_pack_of_writeSpan (s := t) hmode hle hw', rfl, rfl, rfl, rfl, rfl, rfl,
        (Memory.read_writeSpan hs hw).1, (Memory.read_writeSpan hm hw').1, hlen ▸ hagree.writeSpan hs hm hw hw'⟩
  | unframe count =>
    rcases execUnframe_next h with ⟨_, hg, rfl⟩ | ⟨hmode, hlt, rfl⟩ | ⟨hmode, hc, hlen, rfl⟩ |
      ⟨bytes, hmode, hc, hlen, hspan, ⟨_, _, _, herr, rfl⟩ | ⟨words, hok, -, rfl⟩⟩
    · exact ⟨_, exec_gated (s := t) rfl hg, answered _ _⟩
    · exact ⟨_, exec_unframe_countRange (s := t) hmode hlt, answered _ _⟩
    · exact ⟨_, exec_unframe_lengthMismatch (s := t) hmode hc hlen, answered _ _⟩
    · have hspan' := (hagree.readSpan_eq (Nat.zero_add _).le).symm.trans hspan
      exact ⟨_, exec_unframe_checksumMismatch (s := t) hmode hc hlen hspan' herr, answered _ _⟩
    · have hspan' := (hagree.readSpan_eq (Nat.zero_add _).le).symm.trans hspan
      exact ⟨_, exec_unframe_ok (s := t) hmode hc hlen hspan' hok, rfl, rfl, rfl, rfl, rfl, rfl, hs, hm, hagree⟩
  | combine n =>
    rcases execCombine_next h with ⟨_, hg, rfl⟩ | ⟨hmode, hn, rfl⟩ | ⟨hmode, h1, h4, rfl⟩
    · exact ⟨_, exec_gated (s := t) rfl hg, answered _ _⟩
    · exact ⟨_, exec_combine_countRange (s := t) hmode (hn.imp_left BitVec.eq_of_toNat_eq), answered _ _⟩
    · exact ⟨_, exec_combine_of_count (s := t) hmode h1 h4, answered _ _⟩

/-! ## Steps and runs -/

/-- A step that completes on one of two indistinguishable states completes on the other, with the same effect. -/
theorem step_indistinguishable {s t s' : State} (h : s.Indistinguishable t) (hstep : step s = .next s') :
    ∃ t', step t = .next t' ∧ s'.Indistinguishable t' := by
  have hset := h.eq_set
  have ⟨_, _, _, _, hport, hresp, hs, ht, hread⟩ := h
  rcases step_cases s with ⟨hp, hst⟩ | ⟨rest, hp, hst⟩ | ⟨v, rest, i, hp, hd, hst⟩ | ⟨v, rest, e, hp, hd, hst⟩ <;>
    rw [hst] at hstep <;> rw [hport] at hp
  · cases hstep
    exact ⟨t, idleUnitHoldsItsState t hp, h⟩
  · cases hstep
    exact ⟨_, step_reset_input hp, rfl, rfl, rfl, rfl, rfl, hresp, Memory.empty_wf, Memory.empty_wf, fun _ _ => rfl⟩
  · obtain ⟨t', ht', hind⟩ := exec_set_hidden (s := s.setPort rest) (table := t.table) hs ht hread hstep
    refine ⟨t', ?_, hind⟩
    rw [step_command hd hp, ← ht']
    congr 1
    rw [hset]
    rfl
  · cases hstep
    refine ⟨_, step_illegal ⟨e, hd⟩ hp, ?_⟩
    rw [hset]
    exact ⟨rfl, rfl, rfl, rfl, rfl, rfl, hs, ht, hread⟩

/-- Settles O59: if one step completes so does the other, in both directions; and there is one fault only. -/
theorem hiddenStateHasNoEffect : Obligations.HiddenStateHasNoEffect := by
  intro s t h
  cases hs : step s with
  | next s' =>
    obtain ⟨t', ht, hind⟩ := step_indistinguishable h hs
    exact .inl ⟨s', t', rfl, ht, hind⟩
  | refused r => exact absurd hs (step_not_refused s r)
  | fault f =>
    cases ht : step t with
    | next t' =>
      obtain ⟨s', hs', -⟩ := step_indistinguishable h.symm ht
      rw [hs] at hs'; cases hs'
    | refused r => exact absurd ht (step_not_refused t r)
    | fault g =>
      cases f; cases g
      exact .inr ⟨_, rfl, rfl⟩

/-- Settles O60, by induction on the number of steps. -/
theorem hiddenStateIsNeverObserved : Obligations.HiddenStateIsNeverObserved := by
  intro k
  induction k with
  | zero =>
    intro s t s' h hrun
    cases hrun
    obtain ⟨-, -, -, -, -, hresp, -⟩ := h
    exact ⟨t, rfl, hresp.symm⟩
  | succ k ih =>
    intro s t s' h hrun
    obtain ⟨u, hstep, hrun⟩ := run_succ_next hrun
    obtain ⟨u', hstep', hu⟩ := step_indistinguishable h hstep
    obtain ⟨t', hrun', hresp⟩ := ih u u' s' hu hrun
    exact ⟨t', (run_of_step hstep').trans hrun', hresp⟩

end Sys2Proof.Machine
end

section
/-! PROOFS of the statements about what a command depends on: a command that reads, or UNFRAME, given again answers the
same (R59, R173), and only RDW, PACK and COMBINE depend on the word registers (R24). -/

namespace Sys2Proof.Machine

/-! ## The same command again -/

/-- The same answer given twice. -/
theorem State.answer_answer (s : State) (st : Status) (d : Data) :
    (s.answer st d).answer st d = { s with responses := s.responses ++ [⟨st, d⟩, ⟨st, d⟩] } := by
  rw [State.answer, State.answer, List.append_assoc]
  rfl

/-- A command that reads answers and writes nothing; as it reads no responses, it then answers the same. -/
theorem exec_again {i : Instr} {s t : State} (hi : i.readsOnly = true) (h : exec i s = .next t) :
    ∃ st d, t = s.answer st d ∧ exec i t = .next (t.answer st d) := by
  cases i with
  | csrr csr => cases h; exact ⟨_, _, rfl, by cases csr <;> rfl⟩
  | ldb addr =>
    rcases execLdb_next h with ⟨hge, rfl⟩ | ⟨b, hlt, hr, rfl⟩
    · exact ⟨_, _, rfl, exec_ldb_outOfRange hge⟩
    · exact ⟨_, _, rfl, exec_ldb_of_read hlt hr⟩
  | crc off len =>
    rcases execCrc_next h with ⟨_, hg, rfl⟩ | ⟨hm, hlt, rfl⟩ | ⟨bytes, hm, hle, hspan, rfl⟩
    · exact ⟨_, _, rfl, exec_gated rfl hg⟩
    · exact ⟨_, _, rfl, exec_crc_outOfRange hm hlt⟩
    · exact ⟨_, _, rfl, exec_crc_of_readSpan hm hle hspan⟩
  | crcv off len =>
    rcases execCrcv_next h with ⟨_, hg, rfl⟩ | ⟨hm, hlt, rfl⟩ |
      ⟨bytes, actual, hm, hle, hspan, ha, ⟨heq, rfl⟩ | ⟨hne, rfl⟩⟩
    · exact ⟨_, _, rfl, exec_gated rfl hg⟩
    · exact ⟨_, _, rfl, exec_crcv_outOfRange hm hlt⟩
    · exact ⟨_, _, rfl, (exec_crcv_of_readSpan (s := s.answer _ _) hm hle hspan ha).trans (if_pos heq)⟩
    · exact ⟨_, _, rfl, (exec_crcv_of_readSpan (s := s.answer _ _) hm hle hspan ha).trans (if_neg hne)⟩
  | rdw src => cases h; exact ⟨_, _, rfl, exec_rdw src _⟩
  | combine n =>
    rcases execCombine_next h with ⟨_, hg, rfl⟩ | ⟨hm, hn, rfl⟩ | ⟨hm, h1, h4, rfl⟩
    · exact ⟨_, _, rfl, exec_gated rfl hg⟩
    · exact ⟨_, _, rfl, exec_combine_countRange hm (hn.imp_left BitVec.eq_of_toNat_eq)⟩
    · exact ⟨_, _, rfl, exec_combine_of_count hm h1 h4⟩
  | _ => cases hi

/-- Settles O57: the answer of a command that reads, once and again. -/
theorem readsAreIdempotent : Obligations.ReadsAreIdempotent := by
  intro i s t hi h
  obtain ⟨st, d, rfl, hagain⟩ := exec_again hi h
  exact ⟨⟨st, d⟩, rfl, by rw [hagain, State.answer_answer]⟩

/-- Writing the same words again changes nothing. -/
theorem writeWords_again (v : Vector Word NW) (i : Nat) (words : List Word) :
    writeWords (writeWords v i words) i words = writeWords v i words := by
  apply Vector.ext
  intro k hk
  rw [writeWords_getElem, writeWords_getElem]
  split <;> rfl

/-- UNFRAME given again finds the same bytes, and writes the words it has just written or none. -/
theorem exec_unframe_again {count : Byte} {s t : State} (h : exec (.unframe count) s = .next t) :
    ∃ st d, t.responses = s.responses ++ [⟨st, d⟩] ∧ exec (.unframe count) t = .next (t.answer st d) := by
  rcases execUnframe_next h with ⟨_, hg, rfl⟩ | ⟨hm, hlt, rfl⟩ | ⟨hm, hc, hlen, rfl⟩ |
    ⟨bytes, hm, hc, hlen, hspan, ⟨_, _, _, herr, rfl⟩ | ⟨words, hok, -, rfl⟩⟩
  · exact ⟨_, _, rfl, exec_gated rfl hg⟩
  · exact ⟨_, _, rfl, exec_unframe_countRange hm hlt⟩
  · exact ⟨_, _, rfl, exec_unframe_lengthMismatch hm hc hlen⟩
  · exact ⟨_, _, rfl, exec_unframe_checksumMismatch (s := s.answer _ _) hm hc hlen hspan herr⟩
  · let u := s.setWords (writeWords s.w 0 words)
    refine ⟨_, _, rfl, (exec_unframe_ok (s := u.respond count) hm hc hlen hspan hok).trans ?_⟩
    rw [State.respond_w, show u.w = writeWords s.w 0 words from rfl, writeWords_again]
    rfl

/-- Settles O58: two equal answers. -/
theorem unframeIsIdempotent : Obligations.UnframeIsIdempotent := by
  intro count s t h
  obtain ⟨st, d, hr, hagain⟩ := exec_unframe_again h
  refine ⟨⟨st, d⟩, hr, hagain.trans ?_⟩
  rw [State.answer, hr, List.append_assoc]
  rfl

/-! ## The word registers (R24) -/

/-- Each register is written with the same word in both runs, or is written in neither. -/
def WrittenAlike (before after before' after' : Vector Word NW) : Prop :=
  ∀ r : WordReg, after'[r] = after[r] ∨ (after[r] = before[r] ∧ after'[r] = before'[r])

theorem writtenAlike_refl (v v' : Vector Word NW) : WrittenAlike v v v' v' :=
  fun _ => .inr ⟨rfl, rfl⟩

theorem set_writtenAlike (v v' : Vector Word NW) (d : WordReg) (x : Word) :
    WrittenAlike v (v.set d.val x d.isLt) v' (v'.set d.val x d.isLt) := by
  intro r
  by_cases hd : d = r
  · subst hd
    exact .inl ((Vector.getElem_set_self d.isLt).trans (Vector.getElem_set_self d.isLt).symm)
  · have hne := Fin.val_ne_of_ne hd
    exact .inr ⟨Vector.getElem_set_ne d.isLt r.isLt hne, Vector.getElem_set_ne d.isLt r.isLt hne⟩

theorem writeWords_writtenAlike (v v' : Vector Word NW) (words : List Word) :
    WrittenAlike v (writeWords v 0 words) v' (writeWords v' 0 words) := by
  intro r
  rcases Nat.lt_or_ge r.val words.length with hlt | hle
  · exact .inl (Option.some.inj ((writeWords_zero_of_lt v' r hlt).symm.trans (writeWords_zero_of_lt v r hlt)))
  · exact .inr ⟨writeWords_zero_of_le v r hle, writeWords_zero_of_le v' r hle⟩

/-- A command that does not read word registers passes the same checks and does the same when they hold other words. -/
theorem exec_setWords {i : Instr} {s t : State} (v : Vector Word NW) (hi : i.readsWords = false)
    (h : exec i s = .next t) :
    ∃ v', exec i (s.setWords v) = .next (t.setWords v') ∧ WrittenAlike s.w t.w v v' := by
  have unwritten := writtenAlike_refl s.w v
  let u := s.setWords v
  cases i with
  | reset => cases h; exact ⟨_, exec_reset u, fun _ => .inl rfl⟩
  | csrr csr => cases h; exact ⟨v, by cases csr <;> exact exec_csrr _ u, unwritten⟩
  | csrw csr x =>
    rcases execCsrw_next h with ⟨hc, rfl⟩ | ⟨_, hc, hm, rfl⟩ | ⟨_, hc, hm, rfl⟩
    · exact ⟨v, exec_csrw_readOnly (s := u) hc, unwritten⟩
    · exact ⟨v, exec_csrw_locked (s := u) hc hm, unwritten⟩
    · exact ⟨v, exec_csrw_unconfigured (s := u) hc hm, unwritten⟩
  | selftest =>
    by_cases hm : s.mode = .unconfigured
    · rw [exec_selftest_unconfigured hm] at h
      cases h
      exact ⟨v, exec_selftest_unconfigured (s := u) hm, unwritten⟩
    · rw [exec_selftest_locked hm] at h
      cases h
      exact ⟨v, exec_selftest_locked (s := u) hm, unwritten⟩
  | clrb => cases h; exact ⟨v, rfl, unwritten⟩
  | pushb x =>
    rcases execPushb_next h with ⟨hfull, rfl⟩ | ⟨_, hlt, hw, rfl⟩
    · exact ⟨v, exec_pushb_full (s := u) x hfull, unwritten⟩
    · exact ⟨v, exec_pushb_of_write (s := u) hlt hw, unwritten⟩
  | stb addr x =>
    rcases execStb_next h with ⟨hge, rfl⟩ | ⟨_, hlt, hw, rfl⟩
    · exact ⟨v, exec_stb_outOfRange (s := u) x hge, unwritten⟩
    · exact ⟨v, exec_stb_of_write (s := u) hlt hw, unwritten⟩
  | ldb addr =>
    rcases execLdb_next h with ⟨hge, rfl⟩ | ⟨_, hlt, hr, rfl⟩
    · exact ⟨v, exec_ldb_outOfRange (s := u) hge, unwritten⟩
    · exact ⟨v, exec_ldb_of_read (s := u) hlt hr, unwritten⟩
  | crc off len =>
    rcases execCrc_next h with ⟨_, hg, rfl⟩ | ⟨hm, hlt, rfl⟩ | ⟨_, hm, hle, hspan, rfl⟩
    · exact ⟨v, exec_gated (s := u) rfl hg, unwritten⟩
    · exact ⟨v, exec_crc_outOfRange (s := u) hm hlt, unwritten⟩
    · exact ⟨v, exec_crc_of_readSpan (s := u) hm hle hspan, unwritten⟩
  | crcv off len =>
    rcases execCrcv_next h with ⟨_, hg, rfl⟩ | ⟨hm, hlt, rfl⟩ |
      ⟨_, _, hm, hle, hspan, ha, ⟨heq, rfl⟩ | ⟨hne, rfl⟩⟩
    · exact ⟨v, exec_gated (s := u) rfl hg, unwritten⟩
    · exact ⟨v, exec_crcv_outOfRange (s := u) hm hlt, unwritten⟩
    · exact ⟨v, (exec_crcv_of_readSpan (s := u) hm hle hspan ha).trans (if_pos heq), unwritten⟩
    · exact ⟨v, (exec_crcv_of_readSpan (s := u) hm hle hspan ha).trans (if_neg hne), unwritten⟩
  | ldw d x => cases h; exact ⟨_, exec_ldw d x u, set_writtenAlike s.w v d x⟩
  | unframe count =>
    rcases execUnframe_next h with ⟨_, hg, rfl⟩ | ⟨hm, hlt, rfl⟩ | ⟨hm, hc, hlen, rfl⟩ |
      ⟨_, hm, hc, hlen, hspan, ⟨_, _, _, herr, rfl⟩ | ⟨words, hok, -, rfl⟩⟩
    · exact ⟨v, exec_gated (s := u) rfl hg, unwritten⟩
    · exact ⟨v, exec_unframe_countRange (s := u) hm hlt, unwritten⟩
    · exact ⟨v, exec_unframe_lengthMismatch (s := u) hm hc hlen, unwritten⟩
    · exact ⟨v, exec_unframe_checksumMismatch (s := u) hm hc hlen hspan herr, unwritten⟩
    · exact ⟨_, exec_unframe_ok (s := u) hm hc hlen hspan hok, writeWords_writtenAlike s.w v words⟩
  | rdw | pack | combine => cases hi

/-- Settles O54: `exec_setWords` is the statement, with the registers of the second run named. -/
theorem wordRegistersAreReadOnlyBy : Obligations.WordRegistersAreReadOnlyBy := by
  intro i s t v hi h
  obtain ⟨v', hexec, halike⟩ := exec_setWords v hi h
  exact ⟨t.setWords v', hexec, rfl, halike⟩

end Sys2Proof.Machine
end

section
/-! PROOFS of the statements about MODE and the configuration: the life cycle of MODE (R108), the normative
configuration while UNCONFIGURED (R34 item 6), SELFTEST after reset (R222). -/

namespace Sys2Proof.Machine

/-! ## MODE (R108) -/

theorem execCsrw_mode {csr : Csr} {v : Byte} {s t : State} (h : execCsrw csr v s = .next t) : t.mode = s.mode := by
  rcases execCsrw_next h with ⟨-, rfl⟩ | ⟨_, -, -, rfl⟩ | ⟨_, -, -, rfl⟩ <;> rfl

/-- What becomes of MODE on each command. -/
theorem exec_mode {i : Instr} {s t : State} (h : exec i s = .next t) :
    t.mode = if i = .reset then .unconfigured
      else if i = .selftest ∧ s.mode = .unconfigured then selfTestMode (checksum s.cfg CHECK_STRING) else s.mode := by
  cases i with
  | reset => cases h; rfl
  | selftest =>
    rw [if_neg nofun]
    rcases execSelftest_next h with ⟨hm, rfl⟩ | ⟨hm, rfl⟩
    · rw [if_neg (hm ·.2)]; rfl
    · rw [if_pos ⟨rfl, hm⟩, State.answer_mode, State.setMode_mode]
  | csrw csr v => rw [if_neg nofun, if_neg nofun]; exact execCsrw_mode h
  | _ =>
    obtain ⟨-, hmode, -⟩ := exec_sameCheck (by nofun) (by nofun) (by nofun) h
    rw [if_neg nofun, if_neg nofun, hmode]

theorem HostAction.command_resets_iff {v : Command} : (HostAction.command v).resets = true ↔ decode v = .ok .reset :=
  beq_iff_eq.trans (encodedAs_of_encode_eq (i := .reset) rfl (by decide) v).symm

theorem HostAction.command_selfTests_iff {v : Command} :
    (HostAction.command v).selfTests = true ↔ decode v = .ok .selftest :=
  beq_iff_eq.trans (encodedAs_of_encode_eq (i := .selftest) rfl (by decide) v).symm

/-- Settles O21: the reset input resets, a legal word does as `exec_mode` says, and an illegal word keeps MODE. -/
theorem modeFollowsItsLifeCycle : Obligations.ModeFollowsItsLifeCycle := by
  intro s t a rest hp h
  cases a with
  | reset =>
    rw [step_reset_input hp] at h
    cases h; rfl
  | command v =>
    simp only [HostAction.command_resets_iff, HostAction.command_selfTests_iff]
    cases hd : decode v with
    | error e =>
      rw [step_illegal ⟨e, hd⟩ hp] at h
      cases h
      rw [if_neg nofun, if_neg nofun]
      rfl
    | ok i =>
      rw [step_command hd hp] at h
      simp only [Except.ok.injEq]
      exact exec_mode (s := s.setPort rest) h

/-! ## The configuration while UNCONFIGURED (R34 item 6) -/

/-- The configuration is the normative one as long as nothing has been checked. -/
def State.NormativeUnlessChecked (s : State) : Prop := s.mode = .unconfigured → s.cfg = ⟨0x31#8, 0xFF#8, 0x00#8⟩

/-- Of all commands only a CSRW that succeeds can leave another configuration unchecked. -/
theorem Effect.keeps_normative {i : Instr} {s t : State} (hs : s.NormativeUnlessChecked) (h : Effect i s t) :
    t.NormativeUnlessChecked ∨ ∃ csr v, i = .csrw csr v ∧ t.responses = s.responses ++ [⟨.ok, 0#64⟩] := by
  cases h with
  | answer _ _ _ ht | clrb _ _ ht | pushb _ _ _ _ _ _ ht | stb _ _ _ _ _ _ _ ht | ldw _ _ _ _ ht
  | pack _ _ _ _ _ _ ht | unframe _ _ _ _ _ ht => subst ht; exact .inl hs
  | reset _ _ ht => subst ht; exact .inl fun _ => rfl
  | csrw csr v _ hi _ ht => subst ht; exact .inr ⟨csr, v, hi, rfl⟩
  | selftest check _ _ _ ht => subst ht; exact .inl fun hm => absurd hm (selfTestMode_ne_unconfigured check)

/-- Settles O23: reset restores the normative configuration, and no step but a CSRW that succeeds departs from it. -/
theorem unwrittenConfigurationIsNormative : Obligations.UnwrittenConfigurationIsNormative := by
  intro s t hs h
  rcases step_cases s with ⟨-, hst⟩ | ⟨rest, -, hst⟩ | ⟨v, rest, i, hp, hd, hst⟩ | ⟨v, rest, e, -, -, hst⟩ <;>
    rw [hst] at h
  · cases h; exact .inl hs
  · cases h; exact .inl fun _ => rfl
  · rcases (exec_effect h).keeps_normative (s := s.setPort rest) hs with hn | ⟨csr, imm8, rfl, hr⟩
    · exact .inl hn
    · exact .inr ⟨v, rest, csr, imm8, hp, hd, hr⟩
  · cases h; exact .inl hs

/-! ## SELFTEST after reset (R222) -/

/-- The self-check of the normative configuration gives CHECK_VALUE (R11, R152). -/
theorem checksum_checkString_normative : checksum ⟨0x31#8, 0xFF#8, 0x00#8⟩ CHECK_STRING = 0xF7#8 := by decide +kernel

/-- Settles O19: the reset state holds the normative configuration, UNCONFIGURED. -/
theorem selftestPassesAfterReset : Obligations.SelftestPassesAfterReset := by
  have hcheck : checksum State.reset.cfg CHECK_STRING = 0xF7#8 := checksum_checkString_normative
  refine ⟨_, exec_selftest_unconfigured rfl, ?_, ?_⟩ <;> rw [hcheck] <;> rfl

end Sys2Proof.Machine
end

section
/-! PROOFS of the statements about the checksum function (spec/42_checksum.md): byte sequences (R143), linearity over
exclusive or (R146), TABLE (R142), and what follows for the self-check (R109) and for data with its checksum. -/

namespace Sys2Proof.Machine

/-! ## Byte sequences (R143) -/

theorem crcRaw_append (poly c : Byte) (x y : List Byte) :
    crcRaw poly c (x ++ y) = crcRaw poly (crcRaw poly c x) y := by
  induction x generalizing c with
  | nil => rfl
  | cons b x ih => exact ih (crcByte poly c b)

/-- The accumulator after each byte of the check string (R143). -/
theorem crcRaw_checkString_prefixes :
    (List.range 9).map (fun k => crcRaw 0x31 0xFF (CHECK_STRING.take (k + 1))) =
      [0x58, 0x60, 0x2D, 0xCB, 0x9D, 0x16, 0xB7, 0x54, 0xF7] := by decide +kernel

/-- Settles O31: the two equations of `crcRaw`, their consequence for joined lists, and nine values. -/
theorem byteSequencesFoldInOrder : Obligations.ByteSequencesFoldInOrder :=
  ⟨fun _ _ => rfl, fun _ _ _ _ => rfl, crcRaw_append, crcRaw_checkString_prefixes⟩

/-! ## Linearity (R146) -/

@[simp] theorem crcBitStep_zero (poly : Byte) : crcBitStep poly 0x00#8 = 0x00#8 := rfl

/-- The bit shifted out of an exclusive or is the exclusive or of the bits shifted out; two polynomials cancel. -/
theorem crcBitStep_xor (poly c₁ c₂ : Byte) :
    crcBitStep poly (c₁ ^^^ c₂) = crcBitStep poly c₁ ^^^ crcBitStep poly c₂ := by
  simp only [crcBitStep, BitVec.msb_xor, BitVec.shiftLeft_xor_distrib]
  cases c₁.msb <;> cases c₂.msb
  case true.true =>
    have hpolys (x y : Byte) : (x ^^^ poly) ^^^ (y ^^^ poly) = (x ^^^ y) ^^^ (poly ^^^ poly) := by ac_rfl
    simp [hpolys]
  case false.false => rfl
  all_goals
    simp only [Bool.xor_true, Bool.xor_false, Bool.not_false, if_true, Bool.false_eq_true, if_false]
    ac_rfl

theorem crcBitSteps_xor (poly : Byte) (n : Nat) (c₁ c₂ : Byte) :
    crcBitSteps poly n (c₁ ^^^ c₂) = crcBitSteps poly n c₁ ^^^ crcBitSteps poly n c₂ := by
  induction n generalizing c₁ c₂ with
  | zero => rfl
  | succ n ih => rw [crcBitSteps, crcBitStep_xor, ih]; rfl

/-- An entry of the table is eight bit steps from its number (R142). -/
theorem crcTable_toFin (poly i : Byte) : (crcTable poly)[i.toFin] = crcBitSteps poly 8 i := by
  rw [crcTable_getElem, crcByte_zero_left]

/-- Settles O32: the eight bit steps of a table entry are linear because each is. -/
theorem bitStepAndTableAreLinear : Obligations.BitStepAndTableAreLinear := by
  refine ⟨crcBitStep_xor, crcBitStep_zero, fun poly i j => ?_⟩
  rw [crcTable_toFin, crcTable_toFin, crcTable_toFin, crcBitSteps_xor]

/-! ## TABLE (R30, R142) -/

/-- A byte step is one look-up: it depends on the accumulator and the byte through their exclusive or. -/
theorem crcRaw_eq_foldl_table {poly : Byte} {table : Vector Byte 256}
    (h : ∀ i : Fin 256, table[i] = crcByte poly 0x00#8 (BitVec.ofFin i)) (c : Byte) (bytes : List Byte) :
    crcRaw poly c bytes = bytes.foldl (fun acc b => table[(acc ^^^ b).toFin]) c := by
  induction bytes generalizing c with
  | nil => rfl
  | cons b bytes ih =>
    have hb : table[(c ^^^ b).toFin] = crcByte poly c b := by rw [h, crcByte_zero_left]; rfl
    rw [crcRaw, List.foldl_cons, hb, ih]

/-- Settles O33: under the invariant TABLE belongs to CSR.POLY once the configuration has been checked. -/
theorem tableComputesEveryChecksum : Obligations.TableComputesEveryChecksum := by
  intro s bytes hs hm
  obtain ⟨-, -, htable, -⟩ := hs
  rw [checksum_eq, crcRaw_eq_foldl_table (htable hm)]

/-! ## Data with its checksum -/

theorem crcBitSteps_zero (poly : Byte) (n : Nat) : crcBitSteps poly n 0x00#8 = 0x00#8 := by
  induction n with
  | zero => rfl
  | succ n ih => rw [crcBitSteps, crcBitStep_zero, ih]

/-- The byte that equals the accumulator clears it. -/
theorem crcByte_self (poly c : Byte) : crcByte poly c c = 0x00#8 := by
  rw [crcByte, BitVec.xor_self, crcBitSteps_zero]

/-- Settles O34: with xorOut 0 the checksum is the accumulator, and taken as the next byte it clears it. -/
theorem dataWithItsChecksumGivesZero : Obligations.DataWithItsChecksumGivesZero := by
  intro poly init bytes
  rw [checksum_eq, checksum_eq, BitVec.xor_zero, BitVec.xor_zero, crcRaw_append, crcRaw, crcRaw, crcByte_self]

/-! ## What the self-check tells (R109) -/

/-- With polynomial 0 a bit step is a shift, so eight of them clear the accumulator. -/
theorem crcByte_poly_zero (c b : Byte) : crcByte 0x00#8 c b = 0x00#8 := by
  have hshift (x : Byte) : crcBitStep 0x00#8 x = x <<< 1 := by simp [crcBitStep]
  simp [crcByte, crcBitSteps, hshift, ← BitVec.shiftLeft_add]

theorem crcRaw_poly_zero (bytes : List Byte) : crcRaw 0x00#8 0x00#8 bytes = 0x00#8 := by
  induction bytes with
  | nil => rfl
  | cons b bytes ih => rw [crcRaw, crcByte_poly_zero, ih]

/-- Settles O20: exclusive or can be solved for xorOut; with polynomial 0 one byte clears the accumulator for good. -/
theorem oneXorOutPassesForEachPolyAndInit : Obligations.OneXorOutPassesForEachPolyAndInit := by
  refine ⟨fun poly init xorOut => ?solve, fun init xorOut b bytes => ?blind⟩
  case solve =>
    rw [checksum_eq]
    constructor
    · intro h
      rw [← h, ← BitVec.xor_assoc, BitVec.xor_self, BitVec.zero_xor]
    · rintro rfl
      rw [← BitVec.xor_assoc, BitVec.xor_self, BitVec.zero_xor]
  case blind => rw [checksum_eq, crcRaw, crcByte_poly_zero, crcRaw_poly_zero, BitVec.zero_xor]

/-- Settles O35: each value by evaluating the eight bit steps of each byte. -/
theorem sourceChecksumValuesHold : Obligations.SourceChecksumValuesHold := by
  rintro _ rfl
  decide +kernel

end Sys2Proof.Machine
end

section
/-! PROOFS of the statements about `unframe` (spec/43_framer.md section 1): it accepts exactly the frames of its words
(R160, R162, R165), and else it reports the first mismatch (R162, R199). -/

namespace Sys2Proof.Machine

/-! ## What `unframe` accepts -/

/-- The bytes of the frames of these words, word after word (R160). -/
def frames (cfg : ChecksumConfig) (words : List Word) : List Byte := words.flatMap (packWord cfg)

theorem frames_cons (cfg : ChecksumConfig) (v : Word) (words : List Word) :
    frames cfg (v :: words) = highByte v :: lowByte v :: frameChecksum cfg v :: frames cfg words := rfl

theorem frames_length (cfg : ChecksumConfig) (words : List Word) : (frames cfg words).length = 3 * words.length := by
  induction words with
  | nil => rfl
  | cons v words ih => simp only [frames_cons, List.length_cons, ih, Nat.mul_succ]

/-- Every check byte of the frames is right, so the groups give the words back. -/
theorem unframeGroups_frames (cfg : ChecksumConfig) (i : Nat) (words : List Word) :
    unframeGroups cfg i (frames cfg words) words.length = .ok words := by
  induction words generalizing i with
  | nil => rfl
  | cons v words ih =>
    rw [frames_cons, List.length_cons, unframeGroups_succ, frameChecksum, if_pos rfl, ih, highByte_append_lowByte]
    rfl

theorem unframe_frames (cfg : ChecksumConfig) (words : List Word) :
    unframe cfg (frames cfg words) words.length = .ok words :=
  (unframe_of_length_eq (frames_length cfg words)).trans (unframeGroups_frames cfg 0 words)

/-- The bytes of a group more begin with a whole group. -/
theorem exists_group_of_length {bytes : List Byte} {n : Nat} (h : bytes.length = 3 * (n + 1)) :
    ∃ hi lo ck rest, bytes = hi :: lo :: ck :: rest ∧ rest.length = 3 * n := by
  match bytes, h with
  | hi :: lo :: ck :: rest, h => exact ⟨hi, lo, ck, rest, rfl, by simpa [Nat.mul_succ] using h⟩
  | [], h => simp at h
  | [_], h => simp at h; omega
  | [_, _], h => simp at h; omega

/-- Groups that give words are the frames of those words. -/
theorem eq_frames_of_unframeGroups {cfg : ChecksumConfig} {i count : Nat} {bytes : List Byte} {words : List Word}
    (hlen : bytes.length = 3 * count) (h : unframeGroups cfg i bytes count = .ok words) :
    bytes = frames cfg words := by
  induction count generalizing i bytes words with
  | zero =>
    cases (unframeGroups_zero cfg i bytes).symm.trans h
    exact List.eq_nil_of_length_eq_zero hlen
  | succ n ih =>
    obtain ⟨hi, lo, ck, rest, rfl, hrest⟩ := exists_group_of_length hlen
    rw [unframeGroups_succ] at h
    split at h
    case isFalse => cases h
    case isTrue hck =>
      obtain ⟨words', hwords, rfl⟩ := exceptMap_eq_ok.1 h
      rw [frames_cons, frameChecksum, highByte_append, lowByte_append, hck, ← ih hrest hwords]

theorem unframe_eq_ok_iff {cfg : ChecksumConfig} {bytes : List Byte} {count : Nat} {words : List Word} :
    unframe cfg bytes count = .ok words ↔ words.length = count ∧ bytes = frames cfg words := by
  constructor
  · intro h
    refine ⟨length_of_unframe_eq_ok h, ?_⟩
    by_cases hlen : bytes.length = 3 * count
    · exact eq_frames_of_unframeGroups hlen ((unframe_of_length_eq hlen).symm.trans h)
    · rw [unframe_of_length_ne hlen] at h; cases h
  · rintro ⟨rfl, rfl⟩
    exact unframe_frames cfg words

/-- Settles O38: `unframe_eq_ok_iff` with the frames written out. -/
theorem unframeAcceptsExactlyFrames : Obligations.UnframeAcceptsExactlyFrames :=
  fun _ _ _ _ => unframe_eq_ok_iff

/-! ## What `unframe` reports (R162, R199) -/

/-- Group `j` is complete and its check byte is right. -/
def GoodGroup (cfg : ChecksumConfig) (bytes : List Byte) (j : Nat) : Prop :=
  ∃ hi lo, bytes[3 * j]? = some hi ∧ bytes[3 * j + 1]? = some lo ∧ bytes[3 * j + 2]? = some (checksum cfg [hi, lo])

/-- Group `j` is complete and its check byte `actual` is not the checksum `expected` of its two bytes. -/
def BadGroup (cfg : ChecksumConfig) (bytes : List Byte) (j : Nat) (expected actual : Byte) : Prop :=
  ∃ hi lo, bytes[3 * j]? = some hi ∧ bytes[3 * j + 1]? = some lo ∧ bytes[3 * j + 2]? = some actual ∧
    expected = checksum cfg [hi, lo] ∧ expected ≠ actual

section
variable (cfg : ChecksumConfig) (hi lo ck : Byte) (rest : List Byte) (j : Nat) (expected actual : Byte)

theorem goodGroup_zero : GoodGroup cfg (hi :: lo :: ck :: rest) 0 ↔ checksum cfg [hi, lo] = ck := by
  simp [GoodGroup, eq_comm]

theorem goodGroup_succ : GoodGroup cfg (hi :: lo :: ck :: rest) (j + 1) ↔ GoodGroup cfg rest j := by
  simp [GoodGroup, Nat.mul_succ]

theorem badGroup_zero : BadGroup cfg (hi :: lo :: ck :: rest) 0 expected actual ↔
    checksum cfg [hi, lo] = expected ∧ ck = actual ∧ expected ≠ actual := by
  simp [BadGroup, eq_comm]
  tauto

theorem badGroup_succ : BadGroup cfg (hi :: lo :: ck :: rest) (j + 1) expected actual ↔
    BadGroup cfg rest j expected actual := by
  simp [BadGroup, Nat.mul_succ]

end

theorem exceptMap_eq_error {ε α β : Type} {x : Except ε α} {f : α → β} {e : ε} :
    x.map f = .error e ↔ x = .error e := by
  cases x <;> simp [Except.map]

/-- A mismatch is reported of no group before the first one looked at. -/
theorem le_of_unframeGroups_checksumMismatch {cfg : ChecksumConfig} {k n count : Nat} {bytes : List Byte}
    {expected actual : Byte} (hlen : bytes.length = 3 * count)
    (h : unframeGroups cfg k bytes count = .error (.checksumMismatch n expected actual)) : k ≤ n := by
  rcases unframeGroups_cases cfg k hlen with ⟨_, hok, -⟩ | ⟨j, _, _, herr, hle, -⟩
  · rw [hok] at h; cases h
  · rw [herr] at h; cases h; exact hle

/-- The mismatch reported is that of the first bad group, counted from the first one looked at. -/
theorem unframeGroups_eq_checksumMismatch_iff {cfg : ChecksumConfig} {k i count : Nat} {bytes : List Byte}
    {expected actual : Byte} (hlen : bytes.length = 3 * count) :
    unframeGroups cfg k bytes count = .error (.checksumMismatch (k + i) expected actual) ↔
      i < count ∧ BadGroup cfg bytes i expected actual ∧ ∀ j < i, GoodGroup cfg bytes j := by
  induction count generalizing k i bytes with
  | zero => simp
  | succ n ih =>
    obtain ⟨hi, lo, ck, rest, rfl, hrest⟩ := exists_group_of_length hlen
    rw [unframeGroups_succ]
    by_cases hck : checksum cfg [hi, lo] = ck
    · rw [if_pos hck, exceptMap_eq_error]
      cases i with
      | zero =>
        refine iff_of_false (fun h => ?_) (fun ⟨_, hbad, _⟩ => ?_)
        · exact absurd (le_of_unframeGroups_checksumMismatch hrest h) (Nat.not_succ_le_self k)
        · obtain ⟨he, ha, hne⟩ := (badGroup_zero ..).1 hbad
          exact hne (he.symm.trans (hck.trans ha))
      | succ i =>
        rw [show k + (i + 1) = k + 1 + i by omega, ih hrest, Nat.forall_lt_succ_left]
        simp only [badGroup_succ, goodGroup_succ, goodGroup_zero, hck, true_and, Nat.succ_lt_succ_iff]
    · rw [if_neg hck]
      cases i with
      | zero =>
        rw [badGroup_zero]
        constructor
        · rintro ⟨⟩
          exact ⟨n.succ_pos, ⟨rfl, rfl, hck⟩, nofun⟩
        · rintro ⟨-, ⟨rfl, rfl, -⟩, -⟩
          rfl
      | succ i =>
        refine iff_of_false (fun h => ?_) (fun ⟨_, _, hgood⟩ => ?_)
        · cases h
        · exact hck ((goodGroup_zero ..).1 (hgood 0 i.succ_pos))

/-- Settles O39: the length first, then the first bad group. -/
theorem unframeReportsTheFirstMismatch : Obligations.UnframeReportsTheFirstMismatch := by
  intro cfg bytes count
  refine ⟨⟨unframe_of_length_ne, fun h hlen => ?length⟩, fun i expected actual => ?checksum⟩
  case length => exact unframe_ne_lengthMismatch cfg hlen _ _ h
  case checksum =>
    by_cases hlen : bytes.length = 3 * count
    · have hiff := unframeGroups_eq_checksumMismatch_iff (cfg := cfg) (k := 0) (i := i) (expected := expected)
        (actual := actual) hlen
      rw [Nat.zero_add] at hiff
      rw [unframe_of_length_eq hlen, hiff]
      exact (and_iff_right hlen).symm
    · rw [unframe_of_length_ne hlen]
      exact iff_of_false nofun fun h => hlen h.1

end Sys2Proof.Machine
end

section
/-! PROOFS of the statements about buffer contents over several commands (spec/41_buffer.md, spec/43_framer.md): bytes
loaded, packed and read back (R57, R120, R124), and frames unframed again (R57, R165). All go by one notion, the bytes
the buffer holds, and what CLRB, PUSHB and PACK do to them. -/

namespace Sys2Proof.Machine

/-- Settles O24: CLRB writes LEN and nothing else. -/
theorem clrbEmptiesTheBuffer : Obligations.ClrbEmptiesTheBuffer :=
  ⟨encodedAs_of_encode_eq rfl (by decide),
    fun _ hop h => (illegal_clrb hop).2 (field_ne_zero_of_low_ne_zero h), fun _ => rfl⟩

/-! ## Bytes read back by LDB -/

/-- Settles O29: the byte stored is at an address below LEN. -/
theorem ldbAfterStbGivesTheByte : Obligations.LdbAfterStbGivesTheByte := by
  intro s t addr imm8 hs hlt h
  obtain ⟨-, -, -, hwf⟩ := hs
  rcases execStb_next h with ⟨hge, -⟩ | ⟨m, -, hw, rfl⟩
  · exact absurd hlt hge.not_gt
  · exact exec_ldb_of_read (s := (s.setBuf m).respond 0#8) hlt ((Memory.read_write hwf.1 hw _).trans (if_pos rfl))

/-- The bytes that a PACK has appended are read back at their addresses. -/
theorem exec_ldb_packed {s t : State} {src : WordReg} {addr : Byte} {i : Nat} (hs : s.Inv) (hm : s.mode = .ready)
    (hle : s.len.toNat + 3 ≤ BUF_BYTES) (h : exec (.pack src) s = .next t) (hi : i < 3)
    (haddr : addr.toNat = s.len.toNat + i) :
    exec (.ldb addr) t = .next (t.respond ((packWord s.cfg (s.word src))[i]'hi)) := by
  obtain ⟨-, -, -, hwf⟩ := hs
  obtain ⟨m, hw, hbytes, -⟩ := Memory.exists_writeSpan (bytes := packWord s.cfg (s.word src)) hle hwf
  rw [exec_pack_of_writeSpan hm hle hw] at h
  cases h
  refine exec_ldb_of_read ?_ ((congrArg m.read haddr).trans (hbytes i hi))
  rw [haddr, State.respond_len, State.setLen_len, len_add_three_toNat hle]
  omega

/-- Settles O46: the three bytes of `pack_word`, one by one. -/
theorem packedBytesReadBack : Obligations.PackedBytesReadBack := by
  intro s t src hs hm hle h
  have hle' : s.len.toNat + 3 ≤ 12 := hle
  exact ⟨exec_ldb_packed hs hm hle h (i := 0) (by decide) rfl,
    exec_ldb_packed hs hm hle h (i := 1) (by decide) (by bv_omega),
    exec_ldb_packed hs hm hle h (i := 2) (by decide) (by bv_omega)⟩

/-! ## The bytes the buffer holds -/

/-- The valid bytes of the buffer, those below LEN, are these (R28, R53). -/
structure State.Holds (s : State) (bytes : List Byte) : Prop where
  wf : Memory.wf s.buf
  len : s.len.toNat = bytes.length
  read : s.buf.readSpan 0 bytes.length = some bytes

theorem State.Holds.setPort {s : State} {bytes : List Byte} (h : s.Holds bytes) (p : List HostAction) :
    (s.setPort p).Holds bytes :=
  ⟨h.wf, h.len, h.read⟩

theorem holds_nil {s : State} (hwf : Memory.wf s.buf) (hlen : s.len = 0) : s.Holds [] :=
  ⟨hwf, by rw [hlen]; rfl, rfl⟩

/-- A span written behind the bytes held so far, with LEN moved behind it, is held after them. -/
theorem State.Holds.append {s : State} {bytes extra : List Byte} (hs : s.Holds bytes)
    (hfit : bytes.length + extra.length ≤ BUF_BYTES) :
    ∃ m, s.buf.writeSpan s.len.toNat extra = some m ∧
      ∀ t : State, t.buf = m → t.len.toNat = s.len.toNat + extra.length → t.Holds (bytes ++ extra) := by
  obtain ⟨hwf, hlen, hread⟩ := hs
  obtain ⟨m, hw, hnew, hold⟩ := Memory.exists_writeSpan hfit hwf
  refine ⟨m, hlen ▸ hw, fun t htbuf htlen => ⟨?_, ?_, ?_⟩⟩
  · exact htbuf ▸ (Memory.read_writeSpan hwf hw).1
  · rw [htlen, hlen, List.length_append]
  · rw [htbuf, Memory.readSpan_eq_some]
    refine ⟨rfl, fun i hi => ?_⟩
    rw [Nat.zero_add, List.getElem_append]
    split
    case isTrue hlt =>
      have hbyte := (Memory.readSpan_eq_some.1 hread).2 i hlt
      rw [Nat.zero_add] at hbyte
      rw [hold i (.inl hlt), hbyte]
    case isFalse hge =>
      rw [List.length_append] at hi
      have hbyte := hnew (i - bytes.length) (by omega)
      rwa [Nat.add_sub_cancel' (by omega)] at hbyte

/-- The commands from `s` to `t` have left these bytes in the buffer and given these responses, and written nothing
but the buffer. -/
structure Loads (s t : State) (bytes : List Byte) (rs : List Response) : Prop where
  holds : t.Holds bytes
  responses : t.responses = s.responses ++ rs
  check : s.SameCheck t
  words : t.w = s.w

/-- What stood at the port does not matter. -/
theorem Loads.of_setPort {s t : State} {p : List HostAction} {bytes : List Byte} {rs : List Response}
    (h : Loads (s.setPort p) t bytes rs) : Loads s t bytes rs :=
  ⟨h.holds, h.responses, h.check, h.words⟩

theorem Loads.trans {s u t : State} {b₁ b₂ : List Byte} {r₁ r₂ : List Response} (h₁ : Loads s u b₁ r₁)
    (h₂ : Loads u t b₂ r₂) : Loads s t b₂ (r₁ ++ r₂) :=
  ⟨h₂.holds, by rw [h₂.responses, h₁.responses, List.append_assoc], h₁.check.trans h₂.check,
    h₂.words.trans h₁.words⟩

theorem Loads.word_eq {s t : State} {bytes : List Byte} {rs : List Response} (h : Loads s t bytes rs) :
    t.word = s.word :=
  funext fun r => congrArg (·[r.val]) h.words

theorem Loads.refl {s : State} {bytes : List Byte} (h : s.Holds bytes) : Loads s s bytes [] :=
  ⟨h, (List.append_nil _).symm, .refl s, rfl⟩

theorem exec_clrb_loads {s : State} (hwf : Memory.wf s.buf) :
    ∃ t, exec .clrb s = .next t ∧ Loads s t [] [⟨.ok, 0#64⟩] :=
  ⟨_, rfl, holds_nil hwf rfl, rfl, ⟨rfl, rfl, rfl⟩, rfl⟩

theorem exec_pushb_loads {s : State} {bytes : List Byte} (b : Byte) (hs : s.Holds bytes)
    (hfit : bytes.length + 1 ≤ BUF_BYTES) :
    ∃ t, exec (.pushb b) s = .next t ∧ Loads s t (bytes ++ [b]) [⟨.ok, BitVec.ofNat 64 (bytes.length + 1)⟩] := by
  obtain ⟨m, hw, happend⟩ := hs.append (extra := [b]) hfit
  have hlt : s.len.toNat < BUF_BYTES := hs.len ▸ hfit
  have hone : s.buf.write s.len.toNat b = some m := by
    rw [Memory.write_of_lt _ _ hlt]
    rwa [Memory.writeSpan, Memory.write_of_lt _ _ hlt] at hw
  refine ⟨_, exec_pushb_of_write hlt hone, happend _ rfl (len_add_one_toNat hlt), ?_, ⟨rfl, rfl, rfl⟩, rfl⟩
  rw [State.respond_responses, ← hs.len, ← len_add_one_toNat hlt, BitVec.ofNat_toNat]
  rfl

theorem exec_pack_loads {s : State} {bytes : List Byte} (src : WordReg) (hm : s.mode = .ready) (hs : s.Holds bytes)
    (hfit : bytes.length + 3 ≤ BUF_BYTES) :
    ∃ t r, exec (.pack src) s = .next t ∧ Loads s t (bytes ++ packWord s.cfg (s.word src)) [r] := by
  obtain ⟨m, hw, happend⟩ := hs.append (extra := packWord s.cfg (s.word src)) hfit
  have hle : s.len.toNat + 3 ≤ BUF_BYTES := hs.len ▸ hfit
  exact ⟨_, _, exec_pack_of_writeSpan hm hle hw, happend _ rfl (len_add_three_toNat hle), rfl, ⟨rfl, rfl, rfl⟩, rfl⟩

/-- UNFRAME of a buffer that holds frames writes their words. -/
theorem exec_unframe_frames {s : State} {count : Byte} {words : List Word} (hm : s.mode = .ready)
    (hs : s.Holds (frames s.cfg words)) (hcount : words.length = count.toNat) (hle : words.length ≤ NW) :
    exec (.unframe count) s = .next ((s.setWords (writeWords s.w 0 words)).respond count) := by
  obtain ⟨-, hlen, hread⟩ := hs
  refine exec_unframe_ok hm (hcount ▸ hle) ?_ (hlen ▸ hread) (hcount ▸ unframe_frames s.cfg words)
  rw [hlen, frames_length, hcount]

/-! ## Programs -/

/-- The host actions that issue the words of these commands. -/
def programPort (program : List Instr) : List HostAction := program.map fun i => .command (encode i)

/-- A legal command at the port is the first of the steps. -/
theorem run_program_cons {i : Instr} {rest : List Instr} {s t : State} (k : Nat) (hi : i.wellFormed = true)
    (hp : s.port = programPort (i :: rest)) (h : exec i (s.setPort (programPort rest)) = .next t) :
    core.run (k + 1) s = core.run k t ∧ t.port = programPort rest :=
  ⟨run_of_step ((step_command (decode_encode hi) hp).trans h), (exec_answers h).1⟩

/-- CLRB as the first of the steps. -/
theorem run_clrb {s : State} (rest : List Instr) (k : Nat) (hwf : Memory.wf s.buf) :
    ∃ t : State, core.run (k + 1) (s.withProgram (.clrb :: rest)) = core.run k t ∧ t.port = programPort rest ∧
      Loads s t [] [⟨.ok, 0#64⟩] := by
  obtain ⟨t, hexec, hload⟩ := exec_clrb_loads (s := s.setPort (programPort rest)) hwf
  obtain ⟨hrun, hport⟩ := run_program_cons (s := s.withProgram (.clrb :: rest)) k rfl rfl hexec
  exact ⟨t, hrun, hport, hload.of_setPort⟩

/-- UNFRAME as the last step, on a buffer that holds frames. -/
theorem run_unframe {s : State} {count : Byte} {words : List Word} (hp : s.port = programPort [.unframe count])
    (hm : s.mode = .ready) (hs : s.Holds (frames s.cfg words)) (hcount : words.length = count.toNat)
    (hle : words.length ≤ NW) :
    core.run 1 s = .next (((s.setPort []).setWords (writeWords s.w 0 words)).respond count) :=
  (run_program_cons 0 rfl hp (exec_unframe_frames (s := s.setPort []) hm (hs.setPort []) hcount hle)).1

/-- The responses to PUSHB of `k` bytes when the buffer holds `n`. -/
def pushAnswers (n k : Nat) : List Response := (List.range' (n + 1) k).map fun j => ⟨.ok, BitVec.ofNat 64 j⟩

/-- PUSHB of each of these bytes in turn. -/
theorem run_pushbs {bytes held : List Byte} {rest : List Instr} {s : State} (k : Nat)
    (hp : s.port = programPort (bytes.map .pushb ++ rest)) (hs : s.Holds held)
    (hfit : held.length + bytes.length ≤ BUF_BYTES) :
    ∃ t : State, core.run (bytes.length + k) s = core.run k t ∧ t.port = programPort rest ∧
      Loads s t (held ++ bytes) (pushAnswers held.length bytes.length) := by
  induction bytes generalizing held s with
  | nil => exact ⟨s, by rw [List.length_nil, Nat.zero_add], hp, by rw [List.append_nil]; exact .refl hs⟩
  | cons b bytes ih =>
    rw [List.length_cons] at hfit
    obtain ⟨u, hexec, hu⟩ := exec_pushb_loads (s := s.setPort (programPort (bytes.map .pushb ++ rest))) b
      (hs.setPort _) (by omega)
    obtain ⟨hrun, hport⟩ := run_program_cons (bytes.length + k) rfl hp hexec
    obtain ⟨t, hrun', hport', ht⟩ := ih hport hu.holds (by rw [List.length_append, List.length_singleton]; omega)
    have hall := hu.of_setPort.trans ht
    rw [List.append_assoc, List.length_append] at hall
    exact ⟨t, by rw [List.length_cons, Nat.add_right_comm, hrun, hrun'], hport', hall⟩

/-- PACK of each of these registers in turn. -/
theorem run_packs {srcs : List WordReg} {words : List Word} {rest : List Instr} {s : State} (k : Nat)
    (hp : s.port = programPort (srcs.map .pack ++ rest)) (hm : s.mode = .ready) (hs : s.Holds (frames s.cfg words))
    (hfit : words.length + srcs.length ≤ NW) :
    ∃ (t : State) (rs : List Response), core.run (srcs.length + k) s = core.run k t ∧ t.port = programPort rest ∧
      Loads s t (frames s.cfg (words ++ srcs.map s.word)) rs := by
  induction srcs generalizing words s with
  | nil => exact ⟨s, [], by rw [List.length_nil, Nat.zero_add], hp, by simpa using Loads.refl hs⟩
  | cons src srcs ih =>
    rw [List.length_cons] at hfit
    have hroom : (frames s.cfg words).length + 3 ≤ BUF_BYTES := by
      rw [frames_length]
      exact Nat.mul_le_mul_left 3 (show words.length + 1 ≤ NW by omega)
    obtain ⟨u, r, hexec, hu⟩ := exec_pack_loads (s := s.setPort (programPort (srcs.map .pack ++ rest))) src hm
      (hs.setPort _) hroom
    obtain ⟨hrun, hport⟩ := run_program_cons (srcs.length + k) rfl hp hexec
    have hu := hu.of_setPort
    obtain ⟨hcfg, hmode, -⟩ := hu.check
    have hholds : u.Holds (frames u.cfg (words ++ [s.word src])) := by
      rw [hcfg, frames, List.flatMap_append, List.flatMap_singleton]
      exact hu.holds
    obtain ⟨t, rs, hrun', hport', ht⟩ :=
      ih hport (hmode.trans hm) hholds (by rw [List.length_append, List.length_singleton]; omega)
    have hall := hu.trans ht
    rw [hcfg, hu.word_eq, List.append_assoc] at hall
    exact ⟨t, _, by rw [List.length_cons, Nat.add_right_comm, hrun, hrun'], hport', hall⟩

/-- Settles O28: CLRB empties the buffer, and the pushed bytes are held in order. -/
theorem loadedBytesReadBack : Obligations.LoadedBytesReadBack := by
  intro s bytes hs hfit
  obtain ⟨-, -, -, hwf⟩ := hs
  obtain ⟨u, hrun, hport, hu⟩ := run_clrb (bytes.map .pushb ++ []) bytes.length hwf
  obtain ⟨t, hrun', -, ht⟩ := run_pushbs 0 hport hu.holds (by simpa using hfit)
  obtain ⟨hholds, hresponses, ⟨hcfg, hmode, htable⟩, hwords⟩ := hu.trans ht
  refine ⟨t, _, ?run, hholds.len, hholds.read, hresponses, ?count, ?ok, hcfg, hmode, htable, hwords⟩
  case run =>
    rw [List.append_nil] at hrun
    rw [Nat.add_comm, hrun]
    exact hrun'
  case count => simp [pushAnswers, Nat.add_comm]
  case ok =>
    intro r hr
    rcases List.mem_cons.1 hr with rfl | hr
    · rfl
    · obtain ⟨_, -, rfl⟩ := List.mem_map.1 hr
      rfl

/-- Settles O47: the three bytes pushed are the frame of the word. -/
theorem pushedFrameUnframesToItsWord : Obligations.PushedFrameUnframesToItsWord := by
  intro s x y hs hm hlen
  obtain ⟨-, -, -, hwf⟩ := hs
  have hframe : frames s.cfg [x ++ y] = [x, y, checksum s.cfg [x, y]] := by
    rw [frames_cons, frameChecksum, highByte_append, lowByte_append]
    rfl
  obtain ⟨t, hrun, hport, ht⟩ := run_pushbs (bytes := [x, y, checksum s.cfg [x, y]]) (rest := [.unframe 1])
    (s := s.withProgram [.pushb x, .pushb y, .pushb (checksum s.cfg [x, y]), .unframe 1]) 1 rfl
    (holds_nil hwf hlen) (show 3 ≤ BUF_BYTES by decide)
  obtain ⟨hholds, hresponses, ⟨hcfg, hmode, -⟩, hwords⟩ := ht.of_setPort
  have hlast := run_unframe (words := [x ++ y]) hport (hmode.trans hm) (by rw [hcfg, hframe]; exact hholds) rfl
    (show 1 ≤ NW by decide)
  have hfirst := writeWords_zero_of_lt t.w (words := [x ++ y]) 0 Nat.one_pos
  have hrest (r : WordReg) (h : 1 ≤ r.val) : (writeWords t.w 0 [x ++ y])[r.val] = s.w[r.val] :=
    (writeWords_zero_of_le t.w (words := [x ++ y]) r h).trans (congrArg (·[r.val]) hwords)
  refine ⟨_, hrun.trans hlast, (Option.some.inj hfirst).symm, hrest 1 (by decide), hrest 2 (by decide),
    hrest 3 (by decide), ?responses⟩
  case responses =>
    rw [State.respond_responses, State.setWords_responses, State.setPort_responses, hresponses, List.append_assoc]
    rfl

/-- The words of all registers, in order. -/
theorem map_word_finRange (s : State) : (List.finRange NW).map s.word = s.w.toList := by
  apply List.ext_getElem
  · simp
  · intro i h₁ h₂
    simp [State.word]

/-- Registers written with what they hold keep it. -/
theorem writeWords_firstWords (s : State) (k : Nat) : writeWords s.w 0 (s.firstWords k) = s.w := by
  apply Vector.ext
  intro i hi
  rw [writeWords_getElem]
  split
  · simp [State.firstWords]
  · rfl

/-- Settles O48: the frames packed are those of the first `k` registers, and UNFRAME writes their words back. -/
theorem packThenUnframeRestoresTheWords : Obligations.PackThenUnframeRestoresTheWords := by
  intro s k hs hm hk
  obtain ⟨-, -, -, hwf⟩ := hs
  have hk4 : k ≤ 4 := hk
  let srcs := (List.finRange NW).take k
  have hsrcs : srcs.length = k := by simpa [srcs] using hk
  have hfirst : (s.firstWords k).length = k := firstWords_length s hk
  have hcount : (BitVec.ofNat 8 k).toNat = k := by rw [BitVec.toNat_ofNat]; omega
  obtain ⟨u, hrun, hport, hu⟩ := run_clrb (srcs.map .pack ++ [.unframe (BitVec.ofNat 8 k)]) (k + 1) hwf
  obtain ⟨hucfg, humode, -⟩ := hu.check
  obtain ⟨t, rs, hrun', hport', ht⟩ :=
    run_packs (words := []) 1 hport (humode.trans hm) hu.holds (by rw [List.length_nil, Nat.zero_add, hsrcs]; exact hk)
  obtain ⟨hholds, -, ⟨hcfg, hmode, -⟩, hwords⟩ := hu.trans ht
  have hpacked : t.Holds (frames t.cfg (s.firstWords k)) := by
    rw [hucfg, ← hcfg, hu.word_eq, List.nil_append, List.map_take, map_word_finRange] at hholds
    exact hholds
  have hlast := run_unframe hport' (hmode.trans hm) hpacked (hfirst.trans hcount.symm) (hfirst.trans_le hk)
  rw [hsrcs] at hrun'
  refine ⟨_, hrun.trans (hrun'.trans hlast), ?words, ?len, hcfg, hmode.trans hm, ?response⟩
  case words =>
    rw [State.respond_w, State.setWords_w, hwords, writeWords_firstWords]
  case len =>
    rw [State.respond_len, State.setWords_len, State.setPort_len, hpacked.len, frames_length, hfirst]
  case response =>
    rw [State.respond_responses, List.getLast?_concat, ← BitVec.ofNat_toNat, hcount]

end Sys2Proof.Machine
end
